-- ==== Sys2Proof/Word.lean ====
section
/-! DEFINITION. The word types of the block's four formats (00_scope.md R8, 30_encoding.md R33 to R37).

A word is its bits and at the same time an unsigned integer; bit `i` has weight `2^i` (R8). There is no
signed value anywhere in the block. -/

namespace Sys2Proof

/-- Format P1, and one wire of any port (R37, R8). -/
abbrev Bit := Bool

/-- Format I4, an information word (R34). -/
abbrev Info := BitVec 4

/-- Format C7, a seven-bit code-space word: codeword, received word, corrected word, flip mask, error pattern (R35). -/
abbrev Code := BitVec 7

/-- Format S3, a syndrome (R36). -/
abbrev Synd := BitVec 3

end Sys2Proof
end

