-- ==== Sys2Proof/Machine/Operands.lean ====
section
/-! DEFINITION. Operand forms and result assembly: truncation, the bit<->integer conversion of 40_conversion.md, the
bit names of 00_scope.md R9, and concatenation (30_encoding.md R38). Nothing here reads State. -/

namespace Sys2Proof.Machine

/-- `trunc_L(v)`, the low `L` bits of a non-negative integer (R10); how a value wider than its port is taken (R27, R42). -/
def trunc (L v : Nat) : BitVec L := BitVec.ofNat L v

/-- TOBITS's function (R46): element `j` is bit `L-1-j` of `v`, most significant first; higher bits do not appear. -/
def toBits (v L : Nat) : List Bit := (List.range L).map fun j => v.testBit (L - 1 - j)

/-- FROMBITS's function (R47): a left-to-right fold of `(result << 1) | bit` that starts at 0. -/
def fromBits (q : List Bit) : Nat := q.foldl (fun result b => (result <<< 1) ||| b.toNat) 0

/-- The document's `d_j` of an information word, 0-indexed, most significant first: wire `d[3-j]` (R9, R34). -/
def infoBit (d : Info) (j : Nat) : Bit := d.getLsbD (3 - j)

/-- The document's `b_j` of a seven-bit word, 0-indexed, most significant first: wire `c[6-j]` (R9, R35). -/
def codeBit (c : Code) (j : Nat) : Bit := c.getLsbD (6 - j)

/-- The bit at position `p`, 1-indexed from the most significant bit: wire `c[7-p]` (R9, R35). -/
def position (c : Code) (p : Nat) : Bit := c.getLsbD (7 - p)

/-- `unit7(p)`: the word whose only 1 is at position `p`, for `1 <= p <= 7` (R10). -/
def unit7 (p : Nat) : Code := trunc 7 (1 <<< (7 - p))

/-- `popcount(w)` of a seven-bit word: the integer sum of its bits (R10, R72). -/
def popcount (w : Code) : Nat :=
  (w.getLsbD 6).toNat + (w.getLsbD 5).toNat + (w.getLsbD 4).toNat + (w.getLsbD 3).toNat +
    (w.getLsbD 2).toNat + (w.getLsbD 1).toNat + (w.getLsbD 0).toNat

/-- A seven-bit word from its bits listed most significant first (R38, R47). -/
def codeOfBits (q : List Bit) : Code := trunc 7 (fromBits q)

/-- A four-bit word from its bits listed most significant first (R38, R47). -/
def infoOfBits (q : List Bit) : Info := trunc 4 (fromBits q)

end Sys2Proof.Machine
end

