-- ==== Sys2Proof/Syntax.lean ====
section
/-! DEFINITION. The nine operations of 30_encoding.md R39 as syntax, one constructor of `Instr` for each row of
spec/opcode_table.json, and the form in which the host presents one evaluation. -/

namespace Sys2Proof

/-- Which operation the consumer means: it is selected by the output that is read, not by bits of a word (R39, R40). -/
inductive Op where
  | tobits | frombits | pgen | enc | syn | loc | cor | ext | dec
deriving DecidableEq, Repr

/-- An evaluation with its operands at their exact widths (R38, R39, R44). -/
inductive Instr where
  /-- TOBITS `v, L` (R46); `v` is an unbounded non-negative integer. -/
  | tobits (v : Nat) (len : Nat)
  /-- FROMBITS `q` (R47); the head of the list is `q_0`, the most significant bit. -/
  | frombits (q : List Bit)
  /-- PGEN `d` (R50). -/
  | pgen (d : Info)
  /-- ENC `d` (R51). -/
  | enc (d : Info)
  /-- SYN `r` (R56). -/
  | syn (r : Code)
  /-- LOC `s` (R61). -/
  | loc (s : Synd)
  /-- COR `r, f` (R63). -/
  | cor (r : Code) (f : Code)
  /-- EXT `c'` (R64). -/
  | ext (c : Code)
  /-- DEC `r` (R65). -/
  | dec (r : Code)
deriving DecidableEq, Repr

/-- The four word formats (R33). -/
inductive Format where
  | i4 | c7 | s3 | p1
deriving DecidableEq, Repr

/-- The two input ports (R18) and the eight output ports (R19), under the spec's own names. -/
inductive Port where
  | enc_data_i | dec_rx_i
  | enc_p1_o | enc_p2_o | enc_p4_o | enc_code_o
  | dec_syn_o | dec_flip_o | dec_cor_o | dec_data_o
deriving DecidableEq, Repr

/-- One evaluation as the host presents it: which output is read, and the operand word laid out as the
`encoding` column of the operation table says, most significant bit first, bit 0 its last bit (R40).
`nbits` is how many bits are presented; it is the length operand of TOBITS and the length of FROMBITS's sequence,
and means nothing for a port format, which has one width (R43). Log entries 3 and 14. -/
structure Line where
  op    : Op
  nbits : Nat
  word  : Nat
deriving DecidableEq, Repr

/-- What the consumer reads at one evaluation: the `-> result` of a line (R44), one form for each output column
of R39. -/
inductive Result where
  /-- TOBITS: the sequence, `q_0` first. -/
  | bits (q : List Bit)
  /-- FROMBITS: the integer. -/
  | integer (v : Nat)
  /-- PGEN: the three one-bit outputs; they have no order as a group (R19, R37). -/
  | parity (p1 p2 p4 : Bit)
  /-- ENC: the codeword. -/
  | code (c : Code)
  /-- SYN: the syndrome. -/
  | syndrome (s : Synd)
  /-- LOC: the flip mask. -/
  | flip (f : Code)
  /-- COR: the corrected word. -/
  | corrected (c : Code)
  /-- EXT and DEC: the decoded information word. -/
  | info (d : Info)
deriving DecidableEq, Repr

end Sys2Proof
end

