-- ==== Sys2Proof/Decode.lean ====
section
/-! DEFINITION. From a presented line to an evaluation, and back. Total, and it rejects nothing: every operand value is legal
(30_encoding.md R41), a wider one is truncated (R42), and there is no reserved encoding (R43). -/

namespace Sys2Proof

open Sys2Proof.Machine

/-- The nine operations in the order of R39 and of the operation table. -/
def Op.all : List Op := [.tobits, .frombits, .pgen, .enc, .syn, .loc, .cor, .ext, .dec]

/-- The row's mnemonic in spec/opcode_table.json (R39). -/
def Op.mnemonic : Op → String
  | .tobits => "TOBITS"
  | .frombits => "FROMBITS"
  | .pgen => "PGEN"
  | .enc => "ENC"
  | .syn => "SYN"
  | .loc => "LOC"
  | .cor => "COR"
  | .ext => "EXT"
  | .dec => "DEC"

/-- The row's `match`: 0 in every row (R40). -/
def Op.matchBits : Op → Nat := fun _ => 0

/-- The row's `mask`: 0 in every row, so no bit is compared (R40). -/
def Op.maskBits : Op → Nat := fun _ => 0

/-- A row of the table matches an operand word. -/
def Op.matches (op : Op) (w : Nat) : Bool := (w &&& op.maskBits) == op.matchBits

/-- Width of a word of the format (R43: one length per format). -/
def Format.width : Format → Nat
  | .i4 => 4
  | .c7 => 7
  | .s3 => 3
  | .p1 => 1

/-- Format of each port (R18, R19, R34 to R37). -/
def Port.format : Port → Format
  | .enc_data_i => .i4
  | .dec_rx_i => .c7
  | .enc_p1_o => .p1
  | .enc_p2_o => .p1
  | .enc_p4_o => .p1
  | .enc_code_o => .c7
  | .dec_syn_o => .s3
  | .dec_flip_o => .c7
  | .dec_cor_o => .c7
  | .dec_data_o => .i4

/-- The ports of the encoder path (R20, R32). -/
def Port.onEncoderPath : Port → Bool
  | .enc_data_i | .enc_p1_o | .enc_p2_o | .enc_p4_o | .enc_code_o => true
  | .dec_rx_i | .dec_syn_o | .dec_flip_o | .dec_cor_o | .dec_data_o => false

/-- The operand formats of an operation (R39); TOBITS and FROMBITS have no port and no format. -/
def Op.operandFormats : Op → List Format
  | .tobits => []
  | .frombits => []
  | .pgen => [.i4]
  | .enc => [.i4]
  | .syn => [.c7]
  | .loc => [.s3]
  | .cor => [.c7, .c7]
  | .ext => [.c7]
  | .dec => [.c7]

/-- The output ports an operation's result is read at (R39). -/
def Op.outputs : Op → List Port
  | .tobits => []
  | .frombits => []
  | .pgen => [.enc_p1_o, .enc_p2_o, .enc_p4_o]
  | .enc => [.enc_code_o]
  | .syn => [.dec_syn_o]
  | .loc => [.dec_flip_o]
  | .cor => [.dec_cor_o]
  | .ext => [.dec_data_o]
  | .dec => [.dec_data_o]

/-- The values a consumer reads, one for each output column of R39; TOBITS and FROMBITS are read at no port. -/
def Result.wires : Result → List Nat
  | .bits _ => []
  | .integer _ => []
  | .parity p1 p2 p4 => [p1.toNat, p2.toNat, p4.toNat]
  | .code c => [c.toNat]
  | .syndrome s => [s.toNat]
  | .flip f => [f.toNat]
  | .corrected c => [c.toNat]
  | .info d => [d.toNat]

/-- The length of the operand word of an operation whose operands all have a format: the widths added up. -/
def Op.operandBits (op : Op) : Nat := (op.operandFormats.map Format.width).sum

/-- The operation an evaluation is one of. -/
def Instr.op : Instr → Op
  | .tobits _ _ => .tobits
  | .frombits _ => .frombits
  | .pgen _ => .pgen
  | .enc _ => .enc
  | .syn _ => .syn
  | .loc _ => .loc
  | .cor _ _ => .cor
  | .ext _ => .ext
  | .dec _ => .dec

/-- The evaluation a presented line asks for. The operand word is cut to its port's width first of all (R27, R42, R85);
COR's word is `bbbbbbb fffffff`, the received word in the high seven bits (opcode_table.json, R40). -/
def decode (l : Line) : Instr :=
  match l.op with
  | .tobits => .tobits l.word l.nbits
  | .frombits => .frombits (toBits l.word l.nbits)
  | .pgen => .pgen (trunc 4 l.word)
  | .enc => .enc (trunc 4 l.word)
  | .syn => .syn (trunc 7 l.word)
  | .loc => .loc (trunc 3 l.word)
  | .cor => .cor (trunc 7 (l.word >>> 7)) (trunc 7 l.word)
  | .ext => .ext (trunc 7 l.word)
  | .dec => .dec (trunc 7 l.word)

/-- The line that presents an evaluation: its operand word in the layout of the table's `encoding` column (R40). -/
def encode : Instr → Line
  | .tobits v len => ⟨.tobits, len, v⟩
  | .frombits q => ⟨.frombits, q.length, fromBits q⟩
  | .pgen d => ⟨.pgen, 4, d.toNat⟩
  | .enc d => ⟨.enc, 4, d.toNat⟩
  | .syn r => ⟨.syn, 7, r.toNat⟩
  | .loc s => ⟨.loc, 3, s.toNat⟩
  | .cor r f => ⟨.cor, 14, (r.toNat <<< 7) ||| f.toNat⟩
  | .ext c => ⟨.ext, 7, c.toNat⟩
  | .dec r => ⟨.dec, 7, r.toNat⟩

/-- The line that presents COR with two unbounded integers, each cut to its own seven bits (R27, R41). -/
def corLine (v w : Nat) : Line := encode (.cor (trunc 7 v) (trunc 7 w))

/-- What a decoder written from the table alone answers for a word: "all nine operations apply" (R40). -/
def decodeAll (nbits w : Nat) : List Instr :=
  (Op.all.filter (·.matches w)).map fun op => decode ⟨op, nbits, w⟩

/-- The line that stands for a bare word of the table. No bit of a word selects an operation, so the model has to name
the output that is read: it is the decoder's, DEC (DESIGN CHOICE, log entry 4). -/
def tableLine (nbits w : Nat) : Line := ⟨.dec, nbits, w⟩

/-- The evaluation the decoder reads from a bare word of the table (log entry 4). -/
def decodeTableWord (nbits w : Nat) : Option Instr := some (decode (tableLine nbits w))

end Sys2Proof
end

