-- ==== Sys2Proof/Machine/State.lean ====
section
/-! DEFINITION. The machine's state. The block stores nothing: every output is the function of the current inputs and of
nothing else (10_state.md R13 to R17). So State holds no output: it holds the words the host drives on the two
input ports (R18; log entries 1 and 9), the evaluations the host has presented, and the results the consumer has
read (log entries 5 and 6). The eight output ports (R19) are computed from it in Machine/Ops.lean. -/

namespace Sys2Proof.Machine

structure State where
  /-- `enc_data_i` (R18). -/
  encDataI : Info
  /-- `dec_rx_i` (R18). -/
  decRxI : Code
  /-- The evaluations the host has presented and that are not yet made, oldest first (R92; log entry 5). -/
  pending : List Line
  /-- What the consumer has read, newest first (R44; log entry 6). -/
  results : List Result
deriving DecidableEq, Repr

/-- The input record (R13: "a step maps an input record to an output record"). -/
structure Inputs where
  encDataI : Info
  decRxI : Code
deriving DecidableEq, Repr

/-- The output record (R13, R19). -/
structure Outputs where
  encP1O : Bit
  encP2O : Bit
  encP4O : Bit
  encCodeO : Code
  decSynO : Synd
  decFlipO : Code
  decCorO : Code
  decDataO : Info
deriving DecidableEq, Repr

/-- The block raises no exception, trap, fault or error signal under any input: "The list of exception causes is empty"
(60_exceptions.md R79). So there is no constructor (log entry 12). -/
inductive Fault where
deriving DecidableEq, Repr

/-- Why a step gives no meaning. No operation refuses anything (60_exceptions.md R83). -/
inductive Refusal where
  /-- Raised by an arm of exec whose operation has no meaning yet; no arm is one, so it is never raised. Safe. -/
  | notModelled (mnemonic : String)
deriving DecidableEq, Repr

/-- The machine before the host does anything. The block has no reset (10_state.md R21, 70_reset_and_hazards.md R89); the model
names zero on both inputs (DESIGN CHOICE, log entry 2), and the outputs are then the ones R21 and R90 give for all-zero
inputs. Nothing is presented and nothing has been read (log entries 5 and 6). -/
def State.reset : State where
  encDataI := 0#4
  decRxI := 0#7
  pending := []
  results := []

end Sys2Proof.Machine
end

