-- ==== Sys2Proof/Machine/Ops.lean ====
section
/-! DEFINITION. The functions of the units, the whole block as a function of its inputs, and the named operations over the
ports. There is no memory, no register file and no exception to write an operation for (20_memory.md R23,
10_state.md R14, 60_exceptions.md R79 and R86). -/

namespace Sys2Proof.Machine

/-! ### The encoder's units (41_encoder.md) -/

/-- `p1 <- d0 ^ d1 ^ d3` (R50). -/
def parity1 (d : Info) : Bit := infoBit d 0 ^^ infoBit d 1 ^^ infoBit d 3

/-- `p2 <- d0 ^ d2 ^ d3` (R50). -/
def parity2 (d : Info) : Bit := infoBit d 0 ^^ infoBit d 2 ^^ infoBit d 3

/-- `p4 <- d1 ^ d2 ^ d3` (R50). -/
def parity4 (d : Info) : Bit := infoBit d 1 ^^ infoBit d 2 ^^ infoBit d 3

/-- The codeword `[p1, p2, d0, p4, d1, d2, d3]` (R51). -/
def encodeWord (d : Info) : Code :=
  codeOfBits [parity1 d, parity2 d, infoBit d 0, parity4 d, infoBit d 1, infoBit d 2, infoBit d 3]

/-! ### The decoder's units (42_syndrome.md, 43_locator_corrector.md) -/

/-- `s1 <- b0 ^ b2 ^ b4 ^ b6` (R56). -/
def check1 (r : Code) : Bit := codeBit r 0 ^^ codeBit r 2 ^^ codeBit r 4 ^^ codeBit r 6

/-- `s2 <- b1 ^ b2 ^ b5 ^ b6` (R56). -/
def check2 (r : Code) : Bit := codeBit r 1 ^^ codeBit r 2 ^^ codeBit r 5 ^^ codeBit r 6

/-- `s3 <- b3 ^ b4 ^ b5 ^ b6` (R56). -/
def check3 (r : Code) : Bit := codeBit r 3 ^^ codeBit r 4 ^^ codeBit r 5 ^^ codeBit r 6

/-- `s <- (s3 << 2) | (s2 << 1) | s1` (R56). -/
def syndrome (r : Code) : Synd :=
  trunc 3 (((check3 r).toNat <<< 2) ||| ((check2 r).toNat <<< 1) ||| (check1 r).toNat)

/-- The flip mask for a syndrome, with the bounds guard and its branch "skip correction rather than fault" (R61, R62).
It takes an integer, so that the guard has a case to guard. -/
def locate (s : Nat) : Code :=
  if s ≠ 0 ∧ s - 1 ≤ 6 then trunc 7 (1 <<< (6 - (s - 1))) else 0#7

/-- `c' <- r ^ f` (R63). -/
def correct (r f : Code) : Code := r ^^^ f

/-- The information bits at 0-indexed places `[2, 4, 5, 6]` (R64). -/
def extract (c : Code) : Info := infoOfBits [codeBit c 2, codeBit c 4, codeBit c 5, codeBit c 6]

/-- LOC after SYN: the flip mask of a received word (R65, steps 1 to 3). -/
def flipMask (r : Code) : Code := locate (syndrome r).toNat

/-- COR after LOC after SYN: the corrected word of a received word (R65, step 3). -/
def correctedWord (r : Code) : Code := correct r (flipMask r)

/-- The decoder, EXT after COR after LOC after SYN (R65). -/
def decodeWord (r : Code) : Info := extract (correctedWord r)

/-! ### The whole block -/

/-- Every output as the fixed function of the current inputs, and of nothing else (R13, R19). -/
def blockOutputs (i : Inputs) : Outputs where
  encP1O := parity1 i.encDataI
  encP2O := parity2 i.encDataI
  encP4O := parity4 i.encDataI
  encCodeO := encodeWord i.encDataI
  decSynO := syndrome i.decRxI
  decFlipO := flipMask i.decRxI
  decCorO := correctedWord i.decRxI
  decDataO := decodeWord i.decRxI

/-- The input record of a state. -/
def State.inputs (s : State) : Inputs := ⟨s.encDataI, s.decRxI⟩

/-- The output record of a state: "at every moment, the value of a fixed function of the current values of the input
ports, and of nothing else" (R13). -/
def State.outputs (s : State) : Outputs := blockOutputs s.inputs

/-- What `enc_p1_o` carries (R19). -/
def State.encP1O (s : State) : Bit := s.outputs.encP1O

/-- What `enc_p2_o` carries (R19). -/
def State.encP2O (s : State) : Bit := s.outputs.encP2O

/-- What `enc_p4_o` carries (R19). -/
def State.encP4O (s : State) : Bit := s.outputs.encP4O

/-- What `enc_code_o` carries (R19). -/
def State.encCodeO (s : State) : Code := s.outputs.encCodeO

/-- What `dec_syn_o` carries (R19). -/
def State.decSynO (s : State) : Synd := s.outputs.decSynO

/-- What `dec_flip_o` carries (R19). -/
def State.decFlipO (s : State) : Code := s.outputs.decFlipO

/-- What `dec_cor_o` carries (R19). -/
def State.decCorO (s : State) : Code := s.outputs.decCorO

/-- What `dec_data_o` carries (R19). -/
def State.decDataO (s : State) : Info := s.outputs.decDataO

/-- The value on a port as an unsigned integer (R8). -/
def State.port (s : State) : Port → Nat
  | .enc_data_i => s.encDataI.toNat
  | .dec_rx_i => s.decRxI.toNat
  | .enc_p1_o => s.encP1O.toNat
  | .enc_p2_o => s.encP2O.toNat
  | .enc_p4_o => s.encP4O.toNat
  | .enc_code_o => s.encCodeO.toNat
  | .dec_syn_o => s.decSynO.toNat
  | .dec_flip_o => s.decFlipO.toNat
  | .dec_cor_o => s.decCorO.toNat
  | .dec_data_o => s.decDataO.toNat

/-! ### Named operations over the ports -/

/-- The host puts an information word on `enc_data_i`. The units compute all the time (R39), so all four outputs of the
encoder path take its values together (R13, R28); the decoder path is not connected to it (R20, R32). -/
def driveEnc (d : Info) (s : State) : State := { s with encDataI := d }

/-- The host puts a received word on `dec_rx_i`. All four outputs of the decoder path take its values together
(R13, R28, R39); the encoder path is not connected to it (R20, R32). -/
def driveDec (r : Code) (s : State) : State := { s with decRxI := r }

/-- The consumer reads the result of the evaluation (R44). -/
def answer (r : Result) (s : State) : State := { s with results := r :: s.results }

/-- The host presents a line to be evaluated before those already waiting (log entry 5). -/
def present (l : Line) (s : State) : State := { s with pending := l :: s.pending }

/-- The next line to evaluate, if the host has presented one, and the state without it (log entry 5). -/
def fetch (s : State) : Option (Line × State) :=
  match s.pending with
  | [] => none
  | l :: rest => some (l, { s with pending := rest })

end Sys2Proof.Machine
end

