-- ==== Sys2Proof/Machine/Conversion.lean ====
section
/-! DEFINITION. TOBITS and FROMBITS (40_conversion.md). They are the numbering of the wires: they have no port and move none. -/

namespace Sys2Proof.Machine

/-- TOBITS `v, L -> q` (R46). Any length runs: the pseudocode is written for every `L`, and 92_eei_decisions.md D19 gives length 0
the empty sequence (log entry 8). -/
def execTobits (v len : Nat) (s : State) : Host.Outcome State Fault Refusal :=
  .next (answer (.bits (toBits v len)) s)

/-- FROMBITS `q -> v` (R47). -/
def execFrombits (q : List Bit) (s : State) : Host.Outcome State Fault Refusal :=
  .next (answer (.integer (fromBits q)) s)

end Sys2Proof.Machine
end

