-- ==== Sys2Proof/Machine/Encoder.lean ====
section
/-! DEFINITION. PGEN and ENC (41_encoder.md). The operand is the port `enc_data_i`; the result is read at the unit's outputs. -/

namespace Sys2Proof.Machine

/-- PGEN `d -> p1, p2, p4` (R50): drive the information word, read the three one-bit outputs. -/
def execPgen (d : Info) (s : State) : Host.Outcome State Fault Refusal :=
  let t := driveEnc d s
  .next (answer (.parity t.encP1O t.encP2O t.encP4O) t)

/-- ENC `d -> c` (R51): drive the information word, read `enc_code_o`. -/
def execEnc (d : Info) (s : State) : Host.Outcome State Fault Refusal :=
  let t := driveEnc d s
  .next (answer (.code t.encCodeO) t)

end Sys2Proof.Machine
end

