-- ==== Sys2Proof/Machine/LocatorCorrector.lean ====
section
/-! DEFINITION. LOC, COR, EXT and DEC (43_locator_corrector.md). LOC's operand, COR's mask and EXT's operand are no input ports
(10_state.md R18): the unit is evaluated on the operand by itself and the ports keep the values of the block's
own inputs (log entry 7). -/

namespace Sys2Proof.Machine

/-- LOC `s -> f` (R61, R62). -/
def execLoc (syn : Synd) (s : State) : Host.Outcome State Fault Refusal :=
  .next (answer (.flip (locate syn.toNat)) s)

/-- COR `r, f -> c'` (R63): the received word is the port `dec_rx_i`; the seven XOR gates see the mask that is given. -/
def execCor (r f : Code) (s : State) : Host.Outcome State Fault Refusal :=
  let t := driveDec r s
  .next (answer (.corrected (correct t.decRxI f)) t)

/-- EXT `c' -> d'` (R64). -/
def execExt (c : Code) (s : State) : Host.Outcome State Fault Refusal :=
  .next (answer (.info (extract c)) s)

/-- DEC `r -> d'` (R65): drive the received word, read `dec_data_o`. -/
def execDec (r : Code) (s : State) : Host.Outcome State Fault Refusal :=
  let t := driveDec r s
  .next (answer (.info t.decDataO) t)

end Sys2Proof.Machine
end

