-- ==== Sys2Proof/Machine/Syndrome.lean ====
section
/-! DEFINITION. SYN (42_syndrome.md). The operand is the port `dec_rx_i`; the result is read at `dec_syn_o`. -/

namespace Sys2Proof.Machine

/-- SYN `r -> s` (R56): drive the received word, read `dec_syn_o`. -/
def execSyn (r : Code) (s : State) : Host.Outcome State Fault Refusal :=
  let t := driveDec r s
  .next (answer (.syndrome t.decSynO) t)

end Sys2Proof.Machine
end

