-- ==== Sys2Proof/Machine/Dispatch.lean ====
section
/-! DEFINITION. One arm per operation of 30_encoding.md R39. -/

namespace Sys2Proof.Machine

/-- The effect of one evaluation. -/
def exec (i : Instr) (s : State) : Host.Outcome State Fault Refusal :=
  match i with
  | .tobits v len => Sys2Proof.Machine.execTobits v len s
  | .frombits q => Sys2Proof.Machine.execFrombits q s
  | .pgen d => Sys2Proof.Machine.execPgen d s
  | .enc d => Sys2Proof.Machine.execEnc d s
  | .syn r => Sys2Proof.Machine.execSyn r s
  | .loc syn => Sys2Proof.Machine.execLoc syn s
  | .cor r f => Sys2Proof.Machine.execCor r f s
  | .ext c => Sys2Proof.Machine.execExt c s
  | .dec r => Sys2Proof.Machine.execDec r s

end Sys2Proof.Machine
end

