-- ==== Sys2Proof/Machine/Step.lean ====
section
/-! DEFINITION. One step is one evaluation (00_scope.md section 7, item 1). -/

namespace Sys2Proof.Machine

/-- Take the next presented line, decode it, evaluate it. With nothing presented the inputs do not change, so no output does
(10_state.md R13): the state stays as it is (log entry 5). -/
def step (s : State) : Host.Outcome State Fault Refusal :=
  match fetch s with
  | none => .next s
  | some (l, t) => exec (decode l) t

/-- `s` with a bare word of the operation table presented as its next line (log entries 4 and 5). -/
def State.withFetchWord (s : State) (nbits w : Nat) : State := present (tableLine nbits w) s

end Sys2Proof.Machine
end

