-- ==== Sys2Proof/Config.lean ====
section
/-! DEFINITION. The implementation parameters of 00_scope.md R7. They are wiring or harness inputs, never
state (10_state.md R22). -/

namespace Sys2Proof

/-- `N`, codeword length in bits (R7). -/
def Config.n : Nat := 7

/-- `K`, information word length in bits (R7). -/
def Config.k : Nat := 4

/-- `R`, number of parity bits and width of the syndrome (R7). -/
def Config.r : Nat := 3

/-- `PARITY_POS`, the 1-indexed positions that hold parity (R7). -/
def Config.parityPos : List Nat := [1, 2, 4]

/-- `DATA_POS`, the 1-indexed positions that hold D1, D2, D3, D4 (R7). -/
def Config.dataPos : List Nat := [3, 5, 6, 7]

/-- `W_REF`, the default reference information word of the harness (R7; 93_implementation_defined.md U6). -/
def Config.wRef : Info := 0b1011#4

/-- `E_DEMO`, the demonstration error pattern of the report (R7). -/
def Config.eDemo : Code := 0b0000100#7

/-- `T_PD`, the propagation delay: OPEN in the spec and read by no rule (R7, R98; 92_eei_decisions.md D9).
It has no body, so nothing can be proved of its value (log entry 10). -/
opaque Config.tPd : Nat

end Sys2Proof
end

