-- ==== Sys2Proof/Machine/Harness.lean ====
section
/-! DEFINITION. The error-class analyzer (44_analyzer_harness.md): software outside the block (00_scope.md R5), so these are plain
functions and no constructors of Instr. The run of the analyzer on the machine is Machine/Analysis.lean. Log entry 13. -/

namespace Sys2Proof.Machine

/-- INJ `c, e -> r` (R71). -/
def inject (c e : Code) : Code := c ^^^ e

/-- WEIGHT `e -> k` (R72). -/
def weight (e : Code) : Nat := popcount e

/-- The error patterns in the order of enumeration, 1 to 127 ascending (R73). -/
def errorPatterns : List Code := (List.range 127).map fun i => trunc 7 (i + 1)

/-- `M[k]` of CLASSIFY: the patterns of weight `k`, in ascending order (R73). -/
def weightClass (k : Nat) : List Code := errorPatterns.filter fun e => weight e == k

/-- CLASSIFY `-> M`: the classes 1 to 7, listed by weight as the report visits them (R73; log entry 13). -/
def classify : List (Nat × List Code) := (List.range 7).map fun i => (i + 1, weightClass (i + 1))

/-- What RATE answers (R75). -/
structure Rate where
  /-- `Nk`, the corrected count. -/
  nk : Nat
  /-- The class size. -/
  size : Nat
  /-- `Ck`, the exact fraction `Nk / size` (92_eei_decisions.md D17). -/
  ck : Rat
deriving DecidableEq, Repr

/-- Whether one error injected into the reference codeword is repaired: a success of R75's count. -/
def repaired (w : Info) (c e : Code) : Bool := decodeWord (inject c e) == w

/-- RATE `k -> (Nk, size, Ck)` for a reference information word (R75); `Config.wRef` is the document's. The reference codeword is
encoded once. -/
def rate (w : Info) (k : Nat) : Rate :=
  let c := encodeWord w
  let m := weightClass k
  let nk := m.countP (repaired w c)
  ⟨nk, m.length, mkRat nk m.length⟩

end Sys2Proof.Machine
end

