-- ==== Sys2Proof/Machine/Analysis.lean ====
section
/-! DEFINITION. The analyzer's run on the machine (44_analyzer_harness.md R78, 95_test_vectors.md P7): ENC once for the
reference codeword, then DEC for every generated error pattern XORed onto it, comparing with the reference word. It uses
the block only through ENC and DEC, each an evaluation of the machine, and keeps its own data outside it (R22).
Log entry 13. -/

namespace Sys2Proof.Machine

/-- Present one evaluation, step, and read its result. -/
def evaluate (i : Instr) (s : State) : Option (Result × State) :=
  match step (present (encode i) s) with
  | .next t => t.results.head?.map fun r => (r, t)
  | .fault f => nomatch f
  | .refused _ => none

/-- "Analyzer invokes Codec.encode" (R78): the codeword the machine answers. -/
def invokeEncode (w : Info) (s : State) : Option (Code × State) :=
  match evaluate (.enc w) s with
  | some (.code c, t) => some (c, t)
  | _ => none

/-- "invokes Codec.decode" (R78): the information word the machine answers. -/
def invokeDecode (r : Code) (s : State) : Option (Info × State) :=
  match evaluate (.dec r) s with
  | some (.info d, t) => some (d, t)
  | _ => none

/-- Where the count of one class stands: the machine, and the successes so far. -/
structure Tally where
  machine : State
  nk : Nat
deriving DecidableEq, Repr

/-- One error pattern: inject it into the reference codeword, decode, compare with the reference word (R75, R78). -/
def tryPattern (w : Info) (c : Code) (a : Tally) (e : Code) : Option Tally :=
  match invokeDecode (inject c e) a.machine with
  | some (d, t) => some ⟨t, if d = w then a.nk + 1 else a.nk⟩
  | none => none

/-- RATE of one class, on the machine, with the codeword of the run (R75). -/
def rateOn (w : Info) (c : Code) (m : List Code) (s : State) : Option (Rate × State) :=
  (m.foldlM (tryPattern w c) ⟨s, 0⟩).map fun a => (⟨a.nk, m.length, mkRat a.nk m.length⟩, a.machine)

/-- What a run holds: the reference codeword, the rates of the classes so far, and the machine. -/
structure Analysis where
  code : Code
  rates : List (Nat × Rate)
  machine : State
deriving DecidableEq, Repr

/-- One class of the mapping, its rate added to the report. -/
def analyzeClass (w : Info) (a : Analysis) (m : Nat × List Code) : Option Analysis :=
  (rateOn w a.code m.2 a.machine).map fun r => ⟨a.code, a.rates ++ [(m.1, r.1)], r.2⟩

/-- The whole analysis run for a reference word, from a state of the machine (R78, P7): the classes 1 to 7 in order. -/
def analyze (w : Info) (s : State) : Option Analysis :=
  match invokeEncode w s with
  | some (c, t) => classify.foldlM (analyzeClass w) ⟨c, [], t⟩
  | none => none

end Sys2Proof.Machine
end

