-- ==== Sys2Proof/Machine/Program.lean ====
section
/-! DEFINITION. Data-flow programs: lines that use results of earlier lines by name (30_encoding.md R44). Names are the writer's
notation and never reach the block, whose operands are values (10_state.md R14); this file resolves them and
runs each line as a step of the machine. Log entry 15. -/

namespace Sys2Proof.Machine

/-- A value a name can stand for. -/
inductive Value where
  | int (v : Nat)
  | seq (q : List Bit)
  /-- PGEN's three bits, which have no order as a group (R37). -/
  | parities (p1 p2 p4 : Bit)
  /-- CLASSIFY's mapping (R73). -/
  | classes (m : List (Nat × List Code))
  /-- RATE's three results (R75). -/
  | rate (r : Rate)
deriving DecidableEq, Repr

/-- An operand as written: a literal, or the name of an earlier line (its number, from 0). -/
inductive Ref where
  | lit (v : Value)
  | name (k : Nat)
deriving DecidableEq, Repr

/-- A line of a program: a named literal, an evaluation of the block, or one of the harness operations, which
95_test_vectors.md marks (h). -/
inductive ProgLine where
  | give (v : Value)
  /-- INJ `c, e` (R71). -/
  | inj (c e : Ref)
  /-- CLASSIFY (R73). -/
  | classify
  /-- RATE `k`, with the names of the run's reference word, codeword and mapping (R75, P7). -/
  | rate (w c m : Ref) (k : Nat)
  | eval (op : Op) (args : List Ref)
deriving DecidableEq, Repr

/-- Why a text of lines is no program. These are errors of the text, not behaviours of the block. -/
inductive ProgramError where
  /-- A name is used before the line that gives it. -/
  | unboundName
  /-- An operation is written with operands of another number or kind than R39 gives it. -/
  | badOperands
  /-- RATE is asked for a class the mapping does not hold, or an empty one: it is not evaluated (93_implementation_defined.md U12). -/
  | emptyClass
  /-- The machine stopped; it never does (60_exceptions.md R83). -/
  | stopped
deriving DecidableEq, Repr

/-- The value of what a consumer reads. -/
def valueOf : Result → Value
  | .bits q => .seq q
  | .integer v => .int v
  | .parity p1 p2 p4 => .parities p1 p2 p4
  | .code c => .int c.toNat
  | .syndrome s => .int s.toNat
  | .flip f => .int f.toNat
  | .corrected c => .int c.toNat
  | .info d => .int d.toNat

/-- The value of an operand, given the values of the earlier lines in order. -/
def Ref.resolve (env : List Value) : Ref → Except ProgramError Value
  | .lit v => .ok v
  | .name k => match env[k]? with
    | some v => .ok v
    | none => .error .unboundName

/-- The line that presents an operation with given operand values, in the order of R39. A wider integer stays as it is:
the decoder truncates it (R42). -/
def lineOfValues (op : Op) (args : List Value) : Except ProgramError Line :=
  match op, args with
  | .tobits, [.int v, .int len] => .ok ⟨.tobits, len, v⟩
  | .frombits, [.seq q] => .ok (encode (.frombits q))
  | .cor, [.int v, .int w] => .ok (corLine v w)
  | .pgen, [.int v] => .ok ⟨.pgen, 4, v⟩
  | .enc, [.int v] => .ok ⟨.enc, 4, v⟩
  | .syn, [.int v] => .ok ⟨.syn, 7, v⟩
  | .loc, [.int v] => .ok ⟨.loc, 3, v⟩
  | .ext, [.int v] => .ok ⟨.ext, 7, v⟩
  | .dec, [.int v] => .ok ⟨.dec, 7, v⟩
  | _, _ => .error .badOperands

/-- Where a program stands: the machine, and the values of the lines so far in order. -/
structure ProgState where
  machine : State
  env : List Value
deriving DecidableEq, Repr

/-- One line: its value is appended to the named values. An evaluation is presented to the machine and is its next step. -/
def runLine (p : ProgState) : ProgLine → Except ProgramError ProgState
  | .give v => .ok ⟨p.machine, p.env ++ [v]⟩
  | .inj c e => do
    match ← c.resolve p.env, ← e.resolve p.env with
    | .int v, .int w => .ok ⟨p.machine, p.env ++ [.int (inject (trunc 7 v) (trunc 7 w)).toNat]⟩
    | _, _ => .error .badOperands
  | .classify => .ok ⟨p.machine, p.env ++ [.classes classify]⟩
  | .rate w c m k => do
    match ← w.resolve p.env, ← c.resolve p.env, ← m.resolve p.env with
    | .int w, .int c, .classes m =>
      match m.lookup k with
      | some (e :: es) =>
        match rateOn (trunc 4 w) (trunc 7 c) (e :: es) p.machine with
        | some (r, t) => .ok ⟨t, p.env ++ [.rate r]⟩
        | none => .error .stopped
      | _ => .error .emptyClass
    | _, _, _ => .error .badOperands
  | .eval op args => do
    let l ← lineOfValues op (← args.mapM (Ref.resolve p.env))
    match step (present l p.machine) with
    | .next t => .ok ⟨t, p.env ++ (t.results.head?.map valueOf).toList⟩
    | .fault f => nomatch f
    | .refused _ => .error .stopped

/-- A program, from a state of the machine. -/
def runProgram (s : State) (lines : List ProgLine) : Except ProgramError ProgState :=
  lines.foldlM runLine ⟨s, []⟩

/-- The sweep of P7 with its loop written out: ENC once, CLASSIFY, then RATE for each of the seven classes. -/
def sweepProgram (w : Info) : List ProgLine :=
  [.give (.int w.toNat), .eval .enc [.name 0], .classify] ++
    (List.range 7).map fun i => .rate (.name 0) (.name 1) (.name 2) (i + 1)

end Sys2Proof.Machine
end

