-- ==== Sys2Proof/Machine/Flags.lean ====
section
/-! DEFINITION. Flags: the block has none. "No operation sets a flag as a side effect and no operation reads one"
(10_state.md R16), and none may be added (43_locator_corrector.md R68). The only status-like value is the syndrome
on `dec_syn_o`; what a consumer may compute from it is here, outside the block. -/

namespace Sys2Proof.Machine

/-- What "a consumer who wants [an error-detected indication] compares `dec_syn_o` with 0 itself" computes (R16). It is
no output of the block and no proof that exactly one bit was wrong, or that none was (42_syndrome.md R60). -/
def consumerSeesError (s : State) : Bool := s.decSynO != 0#3

end Sys2Proof.Machine
end

