-- ==== Sys2Proof/Safety.lean ====
section
/-! DEFINITION. What statements call safe: the wire equations of the spec between the ports, results the units can give,
and runs that never stop. -/

namespace Sys2Proof.Machine

/-- The encoder's output ports carry the wires of 41_encoder.md R50 and R51 for the word on `enc_data_i` (10_state.md R13, R19). -/
abbrev State.EncoderSettled (s : State) : Prop :=
  s.encP1O = (s.encDataI.getLsbD 3 ^^ s.encDataI.getLsbD 2 ^^ s.encDataI.getLsbD 0) ∧
  s.encP2O = (s.encDataI.getLsbD 3 ^^ s.encDataI.getLsbD 1 ^^ s.encDataI.getLsbD 0) ∧
  s.encP4O = (s.encDataI.getLsbD 2 ^^ s.encDataI.getLsbD 1 ^^ s.encDataI.getLsbD 0) ∧
  s.encCodeO.getLsbD 6 = s.encP1O ∧ s.encCodeO.getLsbD 5 = s.encP2O ∧ s.encCodeO.getLsbD 4 = s.encDataI.getLsbD 3 ∧
  s.encCodeO.getLsbD 3 = s.encP4O ∧ s.encCodeO.getLsbD 2 = s.encDataI.getLsbD 2 ∧
  s.encCodeO.getLsbD 1 = s.encDataI.getLsbD 1 ∧ s.encCodeO.getLsbD 0 = s.encDataI.getLsbD 0

/-- The decoder's output ports carry the wires of 42_syndrome.md R56 and 43_locator_corrector.md R61, R63, R64 for the word on
`dec_rx_i` (10_state.md R13, R19). -/
abbrev State.DecoderSettled (s : State) : Prop :=
  s.decSynO.getLsbD 0 =
    (s.decRxI.getLsbD 6 ^^ s.decRxI.getLsbD 4 ^^ s.decRxI.getLsbD 2 ^^ s.decRxI.getLsbD 0) ∧
  s.decSynO.getLsbD 1 =
    (s.decRxI.getLsbD 5 ^^ s.decRxI.getLsbD 4 ^^ s.decRxI.getLsbD 1 ^^ s.decRxI.getLsbD 0) ∧
  s.decSynO.getLsbD 2 =
    (s.decRxI.getLsbD 3 ^^ s.decRxI.getLsbD 2 ^^ s.decRxI.getLsbD 1 ^^ s.decRxI.getLsbD 0) ∧
  s.decFlipO = (if s.decSynO = 0#3 then 0#7 else unit7 s.decSynO.toNat) ∧
  s.decCorO = s.decRxI ^^^ s.decFlipO ∧
  s.decDataO.getLsbD 3 = s.decCorO.getLsbD 4 ∧ s.decDataO.getLsbD 2 = s.decCorO.getLsbD 2 ∧
  s.decDataO.getLsbD 1 = s.decCorO.getLsbD 1 ∧ s.decDataO.getLsbD 0 = s.decCorO.getLsbD 0

/-- Every output port carries the function of the current inputs (10_state.md R13, R19). -/
abbrev State.Settled (s : State) : Prop := s.EncoderSettled ∧ s.DecoderSettled

/-- A result the block can give: a codeword read is one of the sixteen (41_encoder.md R53, by its zero syndrome), and a flip
mask read is zero or one-hot (43_locator_corrector.md R61). -/
def possibleResult : Result → Bool
  | .bits _ => true
  | .integer _ => true
  | .parity _ _ _ => true
  | .code c => syndrome c == 0#3
  | .syndrome _ => true
  | .flip f => popcount f ≤ 1
  | .corrected _ => true
  | .info _ => true

/-- Everything the consumer has read is a result the block can give. -/
abbrev State.ResultsPossible (s : State) : Prop := s.results.all possibleResult = true

/-- The invariant of every step: settled outputs, and possible results. -/
abbrev State.Inv (s : State) : Prop := s.Settled ∧ s.ResultsPossible

/-- What an evaluation leaves on the input ports: the word it drives on its own (30_encoding.md R39), the other port as it was
(log entry 9). -/
def drivenInputs (i : Instr) (p : Inputs) : Inputs :=
  match i with
  | .pgen d | .enc d => { p with encDataI := d }
  | .syn r | .cor r _ | .dec r => { p with decRxI := r }
  | .tobits _ _ | .frombits _ | .loc _ | .ext _ => p

/-- `k` evaluations are made without a stop (60_exceptions.md R79, R83). -/
def State.RunsFor (s : State) (k : Nat) : Prop := ∃ t : State, Sys2Proof.core.run k s = .next t

end Sys2Proof.Machine
end

