-- ==== Sys2Proof/WellFormed.lean ====
section
/-! DEFINITION. What the document asks of a caller. Every operand value of every operation is legal (30_encoding.md R41);
the one duty a caller has is TOBITS's (40_conversion.md R46). No meaning depends on this check: an ill-formed
evaluation still runs, by truncation or by the pseudocode at another length (log entries 8 and 16). -/

namespace Sys2Proof

/-- The lengths the operation table lists for TOBITS and the document's uses are drawn from (R46). -/
def listedLengths : List Nat := [3, 4, 7]

/-- An evaluation keeps the document's contract: TOBITS has a listed length and its "caller must ensure
`value < 2^length`" (R46); an exact-width operand is always in its domain (R41). -/
def Instr.wellFormed : Instr → Bool
  | .tobits v len => listedLengths.contains len && decide (v < 2 ^ len)
  | .frombits _ => true
  | .pgen _ => true
  | .enc _ => true
  | .syn _ => true
  | .loc _ => true
  | .cor _ _ => true
  | .ext _ => true
  | .dec _ => true

end Sys2Proof
end

