-- ==== Sys2Proof/Certificates/Slice0/Obligations.lean ====
section
/-! DEFINITION. What the provers are asked to prove. Each docstring says which rule of spec/ it formalises. An equation
`exec i s = .next { s with … }` names every field that changes, so it states the frame as well: every input port and
every queue it does not name is as before, and so is every output port whose input is (PathsAreIndependent). -/

open Sys2Proof Sys2Proof.Machine

/-! ### Words, decoding, stepping -/

/-- Operand words written out in the layout of the operation table decode to the evaluations they stand for. A sanity
statement; the way a line names its operation is the model's (log entries 3 and 14). -/
def Obligations.WrittenOutWordsDecode : Prop :=
  decode ⟨.tobits, 4, 0b11011⟩ = .tobits 27 4 ∧
  decode ⟨.frombits, 7, 0b0110011⟩ = .frombits [false, true, true, false, false, true, true] ∧
  decode ⟨.pgen, 4, 0b1011⟩ = .pgen 11#4 ∧
  decode ⟨.enc, 4, 0b1011⟩ = .enc 11#4 ∧
  decode ⟨.syn, 7, 0b0110111⟩ = .syn 55#7 ∧
  decode ⟨.loc, 3, 0b101⟩ = .loc 5#3 ∧
  decode ⟨.cor, 14, 0b01101110000100⟩ = .cor 55#7 4#7 ∧
  decode ⟨.ext, 7, 0b0110011⟩ = .ext 51#7 ∧
  decode ⟨.dec, 7, 0b0110111⟩ = .dec 55#7

/-- A step evaluates the next presented line, decoded, in the state without that line; with nothing presented nothing
changes; a bare table word is presented as a word of DEC. The queue of lines, the idle step and the choice of DEC are
the model's own (log entries 3, 4 and 5). -/
def Obligations.StepRunsTheDecodedLine : Prop :=
  (∀ (s : State) (l : Line) (rest : List Line), s.pending = l :: rest →
    step s = exec (decode l) { s with pending := rest }) ∧
  (∀ s : State, s.pending = [] → step s = .next s) ∧
  (∀ (s : State) (nbits w : Nat), decodeTableWord nbits w = some (.dec (trunc 7 w)) ∧
    step (s.withFetchWord nbits w) = exec (.dec (trunc 7 w)) s)

/-- The nine operations have the table's nine mnemonics, in order, and no bit of a word selects among them: every word
matches every row, so a decoder written from the table alone answers with all nine. -/
def Obligations.NoBitSelectsAnOperation : Prop :=
  Op.all.map Op.mnemonic = ["TOBITS", "FROMBITS", "PGEN", "ENC", "SYN", "LOC", "COR", "EXT", "DEC"] ∧
  (∀ op : Op, op ∈ Op.all) ∧
  (∀ (op : Op) (w : Nat), op.matches w = true) ∧
  (∀ nbits w : Nat, decodeAll nbits w = Op.all.map fun op => decode ⟨op, nbits, w⟩)

/-- Decoding the line that presents an evaluation gives the evaluation back, for every operation and every operand. -/
def Obligations.DecodeOfEncodeIsTheInstruction : Prop :=
  ∀ i : Instr, decode (encode i) = i ∧ (encode i).op = i.op

/-- Where a line presents exactly the bits of its formats (or of its sequence), it is the one line of its evaluation. -/
def Obligations.EncodeOfDecodeIsTheLine : Prop :=
  ∀ l : Line,
    (l.op = .tobits ∨ (l.op = .frombits ∧ l.word < 2 ^ l.nbits) ∨
      (l.op ≠ .tobits ∧ l.op ≠ .frombits ∧ l.nbits = l.op.operandBits ∧ l.word < 2 ^ l.op.operandBits)) →
    encode (decode l) = l

/-- R27: an integer wider than its operand is taken modulo two to the operand's width, before anything else; the evaluation
then is that of the cut value, and it completes with one result and no other record. The same of EXT's operand (R42).
A word presented for COR is two integers side by side, the received word above the low seven bits, each cut by itself; so
is a line of two integers. That the host presents an integer as a line, and COR's two in one word, is the model's own
(log entries 3, 5 and 14). -/
def Obligations.WideOperandsAreTruncated : Prop :=
  (∀ L v : Nat, (trunc L v).toNat = v % 2 ^ L) ∧
  ∀ (s : State) (n v w : Nat),
    step (present ⟨.pgen, n, v⟩ s) = exec (.pgen (trunc 4 v)) s ∧
    step (present ⟨.enc, n, v⟩ s) = exec (.enc (trunc 4 v)) s ∧
    step (present ⟨.syn, n, v⟩ s) = exec (.syn (trunc 7 v)) s ∧
    step (present ⟨.loc, n, v⟩ s) = exec (.loc (trunc 3 v)) s ∧
    step (present (corLine v w) s) = exec (.cor (trunc 7 v) (trunc 7 w)) s ∧
    step (present ⟨.cor, n, w⟩ s) = exec (.cor (trunc 7 (w >>> 7)) (trunc 7 w)) s ∧
    step (present ⟨.ext, n, v⟩ s) = exec (.ext (trunc 7 v)) s ∧
    step (present ⟨.dec, n, v⟩ s) = exec (.dec (trunc 7 v)) s ∧
    (∀ l ∈ [Line.mk .pgen n v, ⟨.enc, n, v⟩, ⟨.syn, n, v⟩, ⟨.loc, n, v⟩, corLine v w, ⟨.cor, n, w⟩,
        ⟨.ext, n, v⟩, ⟨.dec, n, v⟩],
      ∃ (t : State) (r : Result), step (present l s) = .next t ∧
        t.results = r :: s.results ∧ t.pending = s.pending)

/-- R25: a word listed as a sequence is listed most significant bit first, element `j` is wire `w[L-1-j]` and position `p` is
wire `w[L-p]`, for every width; the document's names `b_j` and `d_j` follow it. So `1011` is encoded as `0110011` and
not as its reversal `1100110`. -/
def Obligations.BitOrderIsMostSignificantFirst : Prop :=
  (∀ (L : Nat) (w : BitVec L) (j : Nat), j < L → (toBits w.toNat L)[j]? = some (w.getLsbD (L - 1 - j))) ∧
  (∀ (L : Nat) (w : BitVec L) (p : Nat), 1 ≤ p → p ≤ L → (toBits w.toNat L)[p - 1]? = some (w.getLsbD (L - p))) ∧
  (∀ (c : Code) (p : Nat), 1 ≤ p → p ≤ 7 → position c p = c.getLsbD (7 - p) ∧ codeBit c (p - 1) = c.getLsbD (7 - p)) ∧
  (∀ (d : Info) (j : Nat), j < 4 → infoBit d j = d.getLsbD (3 - j)) ∧
  encodeWord 0b1011#4 = 0b0110011#7 ∧ encodeWord 0b1011#4 ≠ 0b1100110#7

/-! ### Conversion -/

/-- R46: TOBITS completes in every state, for every integer and every length, and gives `L` bits, most significant first.
The document uses the lengths 3, 4 and 7; that TOBITS runs for any other length, with the same pseudocode, is the model's
deduction (log entry 8), and the empty sequence for length 0 is the spec's decision D19. -/
def Obligations.TobitsGivesTheBits : Prop :=
  (∀ (s : State) (v L : Nat), ∃ q : List Bit,
    exec (.tobits v L) s = .next { s with results := .bits q :: s.results } ∧
    q.length = L ∧
    (∀ j, j < L → q[j]? = some ((v >>> (L - 1 - j)) &&& 1 == 1)) ∧
    exec (.tobits (v % 2 ^ L) L) s = exec (.tobits v L) s ∧
    (v = 0 → q = List.replicate L false) ∧
    (v = 2 ^ L - 1 → q = List.replicate L true) ∧
    (L = 0 → q = [])) ∧
  toBits 11 4 = [true, false, true, true] ∧
  toBits 51 7 = [false, true, true, false, false, true, true] ∧
  toBits 27 4 = [true, false, true, true]

/-- R47: FROMBITS completes in every state, for every sequence, and gives the integer whose most significant bit is `q_0`.
That the fold starts at 0 is an inference the spec marks as its own, and 0 for the empty sequence its decision D19. -/
def Obligations.FrombitsGivesTheInteger : Prop :=
  (∀ (s : State) (q : List Bit), ∃ v : Nat,
    exec (.frombits q) s = .next { s with results := .integer v :: s.results } ∧
    v < 2 ^ q.length ∧
    v = (Finset.range q.length).sum (fun j => (q[j]?.getD false).toNat * 2 ^ (q.length - 1 - j)) ∧
    (∀ j, j < q.length → q[j]? = some (v.testBit (q.length - 1 - j))) ∧
    (q = [] → v = 0) ∧
    (q = List.replicate q.length true → v = 2 ^ q.length - 1)) ∧
  fromBits [false, true, true, false, false, true, true] = 51 ∧
  fromBits [true, false, true, true] = 11 ∧
  fromBits [true, false, true] = 5

/-- R48: FROMBITS after TOBITS gives the integer back when it fits the length, and its low bits in any case; TOBITS after
FROMBITS gives the sequence back. The last two are inferences the spec marks as its own. -/
def Obligations.ConversionsAreInverse : Prop :=
  (∀ (s : State) (v L : Nat), L ∈ [3, 4, 7] → v < 2 ^ L → ∃ (t : State) (q : List Bit),
    exec (.tobits v L) s = .next t ∧ t.results = .bits q :: s.results ∧
    exec (.frombits q) t = .next { t with results := .integer v :: t.results }) ∧
  (∀ (s : State) (v L : Nat), ∃ (t : State) (q : List Bit),
    exec (.tobits v L) s = .next t ∧ t.results = .bits q :: s.results ∧
    exec (.frombits q) t = .next { t with results := .integer (v % 2 ^ L) :: t.results }) ∧
  (∀ (s : State) (q : List Bit), ∃ (t : State) (v : Nat),
    exec (.frombits q) s = .next t ∧ t.results = .integer v :: s.results ∧
    exec (.tobits v q.length) t = .next { t with results := .bits q :: t.results })

/-! ### Encoder -/

/-- R50: PGEN completes in every state, drives the three parity bits of the information word on `enc_p1_o`, `enc_p2_o`,
`enc_p4_o`, and reads them. Nothing else of the state changes; the codeword port moves with its input (R13), and its value is
R51's statement. -/
def Obligations.PgenDrivesTheParityBits : Prop :=
  (∀ (s : State) (d : Info), ∃ (t : State) (p1 p2 p4 : Bit),
    exec (.pgen d) s = .next t ∧ t = { s with encDataI := d, results := .parity p1 p2 p4 :: s.results } ∧
    t.encP1O = p1 ∧ t.encP2O = p2 ∧ t.encP4O = p4 ∧
    p1 = (d.getLsbD 3 ^^ d.getLsbD 2 ^^ d.getLsbD 0) ∧
    p2 = (d.getLsbD 3 ^^ d.getLsbD 1 ^^ d.getLsbD 0) ∧
    p4 = (d.getLsbD 2 ^^ d.getLsbD 1 ^^ d.getLsbD 0) ∧
    (d = 0b0000#4 → p1 = false ∧ p2 = false ∧ p4 = false) ∧
    (d = 0b1111#4 → p1 = true ∧ p2 = true ∧ p4 = true) ∧
    (d = 0b1011#4 → p1 = false ∧ p2 = true ∧ p4 = false)) ∧
  (∀ (s : State) (n v : Nat), step (present ⟨.pgen, n, v⟩ s) = exec (.pgen (trunc 4 v)) s)

/-- R51: ENC completes in every state, drives the codeword `[p1, p2, d0, p4, d1, d2, d3]` on `enc_code_o`, and reads it;
nothing else of the state changes. -/
def Obligations.EncDrivesTheCodeword : Prop :=
  (∀ (s : State) (d : Info), ∃ (t : State) (p1 p2 p4 : Bit) (c : Code),
    exec (.enc d) s = .next t ∧ t = { s with encDataI := d, results := .code c :: s.results } ∧
    t.encP1O = p1 ∧ t.encP2O = p2 ∧ t.encP4O = p4 ∧
    t.encCodeO = c ∧
    p1 = (d.getLsbD 3 ^^ d.getLsbD 2 ^^ d.getLsbD 0) ∧
    p2 = (d.getLsbD 3 ^^ d.getLsbD 1 ^^ d.getLsbD 0) ∧
    p4 = (d.getLsbD 2 ^^ d.getLsbD 1 ^^ d.getLsbD 0) ∧
    c.getLsbD 6 = p1 ∧ c.getLsbD 5 = p2 ∧ c.getLsbD 4 = d.getLsbD 3 ∧ c.getLsbD 3 = p4 ∧
    c.getLsbD 2 = d.getLsbD 2 ∧ c.getLsbD 1 = d.getLsbD 1 ∧ c.getLsbD 0 = d.getLsbD 0 ∧
    c.toNat = 64 * p1.toNat + 32 * p2.toNat + 16 * (d.getLsbD 3).toNat + 8 * p4.toNat +
      4 * (d.getLsbD 2).toNat + 2 * (d.getLsbD 1).toNat + (d.getLsbD 0).toNat ∧
    (d = 0b0000#4 → c = 0b0000000#7) ∧ (d = 0b1111#4 → c = 0b1111111#7) ∧ (d = 0b1011#4 → c = 0b0110011#7)) ∧
  (∀ (s : State) (n v : Nat), step (present ⟨.enc, n, v⟩ s) = exec (.enc (trunc 4 v)) s)

/-- R55: a wide information word is cut to its low four bits by ENC and by PGEN, and nothing is raised; 27 and 251 give the
codeword of `1011`. -/
def Obligations.WideInformationWordIsTruncated : Prop :=
  ∀ (s : State) (n v : Nat), ∃ t u : State,
    step (present ⟨.enc, n, v⟩ s) = .next t ∧ exec (.enc (trunc 4 v)) s = .next t ∧
    step (present ⟨.pgen, n, v⟩ s) = .next u ∧ exec (.pgen (trunc 4 v)) s = .next u ∧
    (v = 27 ∨ v = 251 → t.encCodeO = 0b0110011#7)

/-- R52, an inference the spec marks as its own: the code is systematic, ENC is injective and linear over GF(2), and every codeword is the XOR of the rows its
information bits select. -/
def Obligations.EncoderIsSystematicInjectiveLinear : Prop :=
  ∀ (s : State) (a b : Info), ∃ ta tb tx te : State,
    exec (.enc a) s = .next ta ∧ exec (.enc b) s = .next tb ∧ exec (.enc (a ^^^ b)) s = .next tx ∧
    exec (.ext ta.encCodeO) ta = .next te ∧ te.results = .info a :: ta.results ∧
    (ta.encCodeO.getLsbD 4 = a.getLsbD 3 ∧ ta.encCodeO.getLsbD 2 = a.getLsbD 2 ∧
      ta.encCodeO.getLsbD 1 = a.getLsbD 1 ∧ ta.encCodeO.getLsbD 0 = a.getLsbD 0) ∧
    (a ≠ b → ta.encCodeO ≠ tb.encCodeO) ∧
    tx.encCodeO = ta.encCodeO ^^^ tb.encCodeO ∧
    (a = 0#4 → ta.encCodeO = 0#7) ∧
    ta.encCodeO = (if a.getLsbD 3 then 0b1110000#7 else 0#7) ^^^ (if a.getLsbD 2 then 0b1001100#7 else 0#7) ^^^
      (if a.getLsbD 1 then 0b0101010#7 else 0#7) ^^^ (if a.getLsbD 0 then 0b1101001#7 else 0#7)

/-- R53, an inference the spec marks as its own: the complete function table of PGEN and ENC, row by row, and no other seven-bit word is a codeword. -/
def Obligations.EncoderTableIsComplete : Prop :=
  (∀ (s : State), ∀ row ∈ ([
      (0b0000#4, false, false, false, 0b0000000#7), (0b0001#4, true, true, true, 0b1101001#7),
      (0b0010#4, false, true, true, 0b0101010#7), (0b0011#4, true, false, false, 0b1000011#7),
      (0b0100#4, true, false, true, 0b1001100#7), (0b0101#4, false, true, false, 0b0100101#7),
      (0b0110#4, true, true, false, 0b1100110#7), (0b0111#4, false, false, true, 0b0001111#7),
      (0b1000#4, true, true, false, 0b1110000#7), (0b1001#4, false, false, true, 0b0011001#7),
      (0b1010#4, true, false, true, 0b1011010#7), (0b1011#4, false, true, false, 0b0110011#7),
      (0b1100#4, false, true, true, 0b0111100#7), (0b1101#4, true, false, false, 0b1010101#7),
      (0b1110#4, false, false, false, 0b0010110#7), (0b1111#4, true, true, true, 0b1111111#7)] :
      List (Info × Bit × Bit × Bit × Code)),
    ∃ t u : State,
      exec (.pgen row.1) s = .next t ∧
      t.results = .parity row.2.1 row.2.2.1 row.2.2.2.1 :: s.results ∧
      t.encP1O = row.2.1 ∧ t.encP2O = row.2.2.1 ∧ t.encP4O = row.2.2.2.1 ∧
      exec (.enc row.1) s = .next u ∧
      u.results = .code row.2.2.2.2 :: s.results ∧ u.encCodeO = row.2.2.2.2) ∧
  (∀ c : Code, (∃ d : Info, encodeWord d = c) ↔
    c.toNat ∈ [0, 105, 42, 67, 76, 37, 102, 15, 112, 25, 90, 51, 60, 85, 22, 127])

/-- Where the encoder puts its bits (R7, R35): DATA_POS hold the information word and PARITY_POS the three parity outputs,
and the two lists are all seven positions. -/
def Obligations.EncoderPlacesDataAndParity : Prop :=
  (∀ (s : State) (d : Info), ∃ t : State, exec (.enc d) s = .next t ∧
    Config.dataPos.map (position t.encCodeO) = toBits d.toNat Config.k ∧
    Config.parityPos.map (position t.encCodeO) = [t.encP1O, t.encP2O, t.encP4O]) ∧
  (Config.parityPos ++ Config.dataPos).Perm ((List.range Config.n).map (· + 1)) ∧
  Config.parityPos.length = Config.r ∧ Config.r = Config.n - Config.k

/-- R54: minimum distance 3, and the weights of the codewords, which the spec marks as inferred. -/
def Obligations.CodewordsDifferInThreePlaces : Prop :=
  ∀ (s : State) (d d' : Info), ∃ t t' : State,
    exec (.enc d) s = .next t ∧ exec (.enc d') s = .next t' ∧
    (d ≠ d' → 3 ≤ popcount (t.encCodeO ^^^ t'.encCodeO)) ∧
    (t.encCodeO ≠ 0#7 → popcount t.encCodeO ≠ 1 ∧ popcount t.encCodeO ≠ 2) ∧
    popcount t.encCodeO ∈ [0, 3, 4, 7] ∧
    (popcount t.encCodeO = 0 ↔ t.encCodeO = 0b0000000#7) ∧
    (popcount t.encCodeO = 3 ↔ t.encCodeO ∈ [0b0101010#7, 0b1000011#7, 0b1001100#7, 0b0100101#7, 0b1110000#7,
      0b0011001#7, 0b0010110#7]) ∧
    (popcount t.encCodeO = 4 ↔ t.encCodeO ∈ [0b1101001#7, 0b1100110#7, 0b0001111#7, 0b1011010#7, 0b0110011#7,
      0b0111100#7, 0b1010101#7]) ∧
    (popcount t.encCodeO = 7 ↔ t.encCodeO = 0b1111111#7)

/-! ### Syndrome -/

/-- R56: SYN completes in every state, drives the syndrome of the received word on `dec_syn_o`, and reads it. Nothing
else of the state changes; the other decoder outputs move with their input (R13), and their values are other
statements'. -/
def Obligations.SynDrivesTheSyndrome : Prop :=
  (∀ (s : State) (r : Code), ∃ (t : State) (y : Synd) (s1 s2 s3 : Bit),
    exec (.syn r) s = .next t ∧ t = { s with decRxI := r, results := .syndrome y :: s.results } ∧ t.decSynO = y ∧
    s1 = (r.getLsbD 6 ^^ r.getLsbD 4 ^^ r.getLsbD 2 ^^ r.getLsbD 0) ∧
    s2 = (r.getLsbD 5 ^^ r.getLsbD 4 ^^ r.getLsbD 1 ^^ r.getLsbD 0) ∧
    s3 = (r.getLsbD 3 ^^ r.getLsbD 2 ^^ r.getLsbD 1 ^^ r.getLsbD 0) ∧
    y.getLsbD 2 = s3 ∧ y.getLsbD 1 = s2 ∧ y.getLsbD 0 = s1 ∧
    y.toNat = (s3.toNat <<< 2) ||| (s2.toNat <<< 1) ||| s1.toNat ∧
    y.toNat = 4 * s3.toNat + 2 * s2.toNat + s1.toNat ∧
    (r = 0b0000000#7 → y = 0b000#3) ∧ (r = 0b1111111#7 → y = 0b000#3) ∧ (r = 0b0110111#7 → y = 0b101#3)) ∧
  (∀ (s : State) (n v : Nat), step (present ⟨.syn, n, v⟩ s) = exec (.syn (trunc 7 v)) s) ∧
  syndrome (trunc 7 179) = 0b000#3

/-- R57, an inference the spec marks as its own: SYN is linear over GF(2), and each syndrome bit is the parity of the received word under a mask. -/
def Obligations.SyndromeIsLinear : Prop :=
  ∀ (s : State) (a b : Code), ∃ ta tb tx tz : State,
    exec (.syn a) s = .next ta ∧ exec (.syn b) s = .next tb ∧ exec (.syn (a ^^^ b)) s = .next tx ∧
    exec (.syn 0#7) s = .next tz ∧
    tx.decSynO = ta.decSynO ^^^ tb.decSynO ∧ tz.decSynO = 0#3 ∧
    (ta.decSynO.getLsbD 0).toNat = popcount (a &&& 0b1010101#7) % 2 ∧
    (ta.decSynO.getLsbD 1).toNat = popcount (a &&& 0b0110011#7) % 2 ∧
    (ta.decSynO.getLsbD 2).toNat = popcount (a &&& 0b0001111#7) % 2

/-- R58, an inference the spec marks as its own: the syndrome of a received word is zero exactly when it is one of the sixteen codewords, and each syndrome value
is taken by exactly 16 of the 128 words. -/
def Obligations.ZeroSyndromeMeansCodeword : Prop :=
  (∀ (s : State) (r : Code), ∃ t : State, exec (.syn r) s = .next t ∧
    (t.decSynO = 0#3 ↔ ∃ (d : Info) (u : State), exec (.enc d) s = .next u ∧ u.encCodeO = r) ∧
    (t.decSynO = 0#3 ↔ r.toNat ∈ [0, 15, 22, 25, 37, 42, 51, 60, 67, 76, 85, 90, 102, 105, 112, 127])) ∧
  (∀ y : Synd, ((List.range 128).filter fun n => syndrome (trunc 7 n) == y).length = 16)

/-- R59, an inference the spec marks as its own: the syndrome of a single set bit is its position, because position `p` takes part in check `s1`, `s2`, `s3` when
bit 0, 1, 2 of `p` is 1. -/
def Obligations.SyndromeNamesThePosition : Prop :=
  ∀ (s : State) (r : Code) (p : Nat), 1 ≤ p → p ≤ 7 → ∃ t t0 t1 : State,
    exec (.syn (unit7 p)) s = .next t ∧ t.decSynO.toNat = p ∧
    exec (.syn r) s = .next t0 ∧ exec (.syn (r ^^^ unit7 p)) s = .next t1 ∧
    (t0.decSynO.getLsbD 0 ≠ t1.decSynO.getLsbD 0 ↔ p.testBit 0 = true) ∧
    (t0.decSynO.getLsbD 1 ≠ t1.decSynO.getLsbD 1 ↔ p.testBit 1 = true) ∧
    (t0.decSynO.getLsbD 2 ≠ t1.decSynO.getLsbD 2 ↔ p.testBit 2 = true)

/-- R60, an inference the spec marks as its own: the syndrome depends on the error alone; an error that is a codeword is invisible; any other error of weight 2 or
more has a non-zero syndrome that names a position which is not the only one in error. -/
def Obligations.SyndromeDependsOnTheErrorAlone : Prop :=
  ∀ (s : State) (d : Info) (e : Code), ∃ t u : State,
    exec (.syn (encodeWord d ^^^ e)) s = .next t ∧ exec (.syn e) s = .next u ∧
    t.decSynO = u.decSynO ∧
    (∀ p, 1 ≤ p → p ≤ 7 → e = unit7 p → t.decSynO.toNat = p) ∧
    ((∃ d' : Info, e = encodeWord d') → t.decSynO = 0#3) ∧
    (2 ≤ popcount e → (¬∃ d' : Info, e = encodeWord d') → t.decSynO ≠ 0#3 ∧ e ≠ unit7 t.decSynO.toNat)

/-! ### Locator, corrector, extraction -/

/-- R61: LOC completes in every state for each of the eight syndromes and gives no flip for 0 and the one-hot mask at
position `s` otherwise; inside the block `dec_flip_o` carries that mask for the syndrome of `dec_rx_i`. -/
def Obligations.LocSelectsTheFlip : Prop :=
  (∀ (s : State) (y : Synd), ∃ (t : State) (f : Code),
    exec (.loc y) s = .next t ∧ t.results = .flip f :: s.results ∧
    (y = 0#3 → f = 0b0000000#7) ∧
    (y ≠ 0#3 → y.toNat - 1 ≤ 6 ∧ f.toNat = 1 <<< (6 - (y.toNat - 1)) ∧ f = unit7 y.toNat ∧
      f.getLsbD (7 - y.toNat) = true ∧ popcount f = 1) ∧
    (y, f) ∈ [(0b000#3, 0b0000000#7), (0b001#3, 0b1000000#7), (0b010#3, 0b0100000#7), (0b011#3, 0b0010000#7),
      (0b100#3, 0b0001000#7), (0b101#3, 0b0000100#7), (0b110#3, 0b0000010#7), (0b111#3, 0b0000001#7)]) ∧
  (∀ (s : State) (r : Code), ∃ t u : State,
    exec (.syn r) s = .next t ∧ exec (.loc t.decSynO) t = .next u ∧ u.results = .flip t.decFlipO :: t.results)

/-- R62, partly inferences the spec marks as its own: outside 1 to 7 the guard skips the flip and nothing faults; for a 3-bit syndrome it never fails, and all 128
received words pass it. -/
def Obligations.BoundsGuardSkipsTheFlip : Prop :=
  (∀ n : Nat, n = 0 ∨ 7 < n → locate n = 0b0000000#7) ∧
  (∀ y : Synd, y ≠ 0#3 → y.toNat - 1 ≤ 6) ∧
  (∀ (s : State) (r : Code), ∃ t : State, exec (.dec r) s = .next t ∧
    (t.decSynO ≠ 0#3 → t.decSynO.toNat - 1 ≤ 6 ∧ t.decFlipO = unit7 t.decSynO.toNat))

/-- R63: COR completes in every state for every received word and every mask, and reads the received word XOR the mask; the
received word stays on its port; with the block's own mask the result is what `dec_cor_o` carries. That it is then a
codeword, whatever was received, is an inference the spec marks as its own; a mask that is not the block's own is
evaluated by the unit alone (log entry 7). -/
def Obligations.CorAppliesTheFlip : Prop :=
  (∀ (s : State) (r f : Code), ∃ t : State,
    exec (.cor r f) s = .next t ∧ t = { s with decRxI := r, results := .corrected (r ^^^ f) :: s.results } ∧
    (f = t.decFlipO → t.decCorO = r ^^^ f) ∧
    (f = 0b0000000#7 → r ^^^ f = r)) ∧
  (∀ (s : State) (r : Code), ∃ t u v : State,
    exec (.syn r) s = .next t ∧ popcount t.decFlipO ≤ 1 ∧
    exec (.cor r t.decFlipO) t = .next u ∧ u.results = .corrected u.decCorO :: t.results ∧
    exec (.syn u.decCorO) u = .next v ∧ v.decSynO = 0#3) ∧
  correct 0b0110111#7 0b0000100#7 = 0b0110011#7

/-- R64: EXT completes in every state for every seven-bit word and gives its positions 3, 5, 6, 7, whatever the parity
positions hold; inside the block `dec_data_o` carries that of `dec_cor_o`. -/
def Obligations.ExtTakesTheDataPositions : Prop :=
  (∀ (s : State) (c : Code), ∃ (t : State) (d : Info),
    exec (.ext c) s = .next t ∧ t.results = .info d :: s.results ∧
    d.getLsbD 3 = c.getLsbD 4 ∧ d.getLsbD 2 = c.getLsbD 2 ∧ d.getLsbD 1 = c.getLsbD 1 ∧ d.getLsbD 0 = c.getLsbD 0 ∧
    (c = 0b0110011#7 → d = 0b1011#4)) ∧
  (∀ (s : State) (c c' : Code), (∀ p ∈ Config.dataPos, position c p = position c' p) →
    exec (.ext c) s = exec (.ext c') s) ∧
  (∀ (s : State) (r : Code), ∃ t u : State,
    exec (.dec r) s = .next t ∧ exec (.ext t.decCorO) t = .next u ∧ u.results = .info t.decDataO :: t.results)

/-! ### Decoder -/

/-- R65: DEC completes in every state for every received word; what it reads on `dec_data_o`, and what the other decoder
outputs carry, is what SYN, LOC, COR and EXT give one after another. -/
def Obligations.DecRunsTheFourSteps : Prop :=
  (∀ (s : State) (r : Code), ∃ (y : Synd) (f c : Code) (d : Info) (t1 t2 t3 t4 t : State),
    exec (.syn r) s = .next t1 ∧ t1.results = .syndrome y :: s.results ∧
    exec (.loc y) t1 = .next t2 ∧ t2.results = .flip f :: t1.results ∧
    exec (.cor r f) t2 = .next t3 ∧ t3.results = .corrected c :: t2.results ∧
    exec (.ext c) t3 = .next t4 ∧ t4.results = .info d :: t3.results ∧
    exec (.dec r) s = .next t ∧ t = { s with decRxI := r, results := .info d :: s.results } ∧
    t.decSynO = y ∧ t.decFlipO = f ∧ t.decCorO = c ∧ t.decDataO = d ∧
    (r = 0b0110111#7 → y = 0b101#3 ∧ f = 0b0000100#7 ∧ c = 0b0110011#7 ∧ d = 0b1011#4)) ∧
  (∀ (s : State) (n v : Nat), step (present ⟨.dec, n, v⟩ s) = exec (.dec (trunc 7 v)) s)

/-- R45, an inference the spec marks as its own: the two composites. Running the four lines DEC expands to leaves every port as DEC leaves it, with the same word
read last; ENC's result is PGEN's three bits with the four data bits in the order of format C7. -/
def Obligations.CompositesExpand : Prop :=
  (∀ (s : State) (r : Code) (t1 t2 t3 t4 t : State) (y : Synd) (f c : Code),
    exec (.syn r) s = .next t1 → t1.results.head? = some (.syndrome y) →
    exec (.loc y) t1 = .next t2 → t2.results.head? = some (.flip f) →
    exec (.cor r f) t2 = .next t3 → t3.results.head? = some (.corrected c) →
    exec (.ext c) t3 = .next t4 → exec (.dec r) s = .next t →
    t4.results.head? = t.results.head? ∧ t4.inputs = t.inputs ∧ t4.outputs = t.outputs) ∧
  (∀ (s : State) (d : Info), ∃ (t u : State) (p1 p2 p4 : Bit) (c : Code),
    exec (.pgen d) s = .next t ∧ t.results = .parity p1 p2 p4 :: s.results ∧
    exec (.enc d) s = .next u ∧ u.results = .code c :: s.results ∧
    toBits c.toNat 7 = [p1, p2, infoBit d 0, p4, infoBit d 1, infoBit d 2, infoBit d 3])

/-- R66: with no error, decoding the encoder's codeword gives the information word back, with syndrome 0 and no flip on the
way. -/
def Obligations.RoundTripWithNoError : Prop :=
  ∀ (s : State) (d : Info), ∃ t u : State,
    exec (.enc d) s = .next t ∧ exec (.dec t.encCodeO) t = .next u ∧
    u.results = .info d :: t.results ∧ u.decDataO = d ∧ u.decSynO = 0#3 ∧ u.decFlipO = 0#7

/-- R67: any error of weight 1 on any codeword is corrected. That the syndrome is then the error's position, the flip mask the
error itself and the corrected word the codeword is an inference the spec marks as its own in R67. -/
def Obligations.SingleErrorIsCorrected : Prop :=
  ∀ (s : State) (d : Info) (e : Code), popcount e = 1 → ∃ (t u : State) (p : Nat),
    exec (.enc d) s = .next t ∧ exec (.dec (t.encCodeO ^^^ e)) t = .next u ∧
    u.results = .info d :: t.results ∧ u.decDataO = d ∧
    1 ≤ p ∧ p ≤ 7 ∧ e = unit7 p ∧ u.decSynO.toNat = p ∧ u.decFlipO = unit7 p ∧ u.decCorO = t.encCodeO

/-- R69, an inference the spec marks as its own: the information word comes back exactly when the error has weight at most 1; otherwise the corrected word is the
codeword of another information word, which is the one decoded; every seven-bit word is within distance 1 of exactly
one codeword. -/
def Obligations.ExactExtentOfCorrection : Prop :=
  (∀ (s : State) (d : Info) (e : Code), ∃ t u : State,
    exec (.enc d) s = .next t ∧ exec (.dec (inject t.encCodeO e)) t = .next u ∧
    (u.decDataO = d ↔ popcount e ≤ 1) ∧
    (2 ≤ popcount e → ∃ d' : Info, d' ≠ d ∧ u.decCorO = encodeWord d' ∧ u.decCorO ≠ t.encCodeO ∧ u.decDataO = d')) ∧
  (∀ r : Code, ∃ d : Info, popcount (r ^^^ encodeWord d) ≤ 1 ∧
    ∀ d' : Info, popcount (r ^^^ encodeWord d') ≤ 1 → d' = d)

/-- R68 and R69: after an error of weight 2 or more the word read is wrong, and the state the machine is left in is the very
one a corrected (or absent) single error leaves; so no output tells the two apart. That the word is wrong every time is
an inference the spec marks as its own in R69; R68 says it may be wrong. -/
def Obligations.MiscorrectionIsSilent : Prop :=
  ∀ (s : State) (d : Info) (e : Code), 2 ≤ popcount e → ∃ (d' : Info) (e' : Code) (t : State),
    d' ≠ d ∧ popcount e' ≤ 1 ∧
    exec (.dec (inject (encodeWord d) e)) s = .next t ∧
    exec (.dec (inject (encodeWord d') e')) s = .next t ∧
    t.decDataO = d'

/-- R70, an inference the spec marks as its own: a flip at a parity position leaves the data bits of the received word as they are; at a data position it inverts
exactly that data bit. -/
def Obligations.ParityFlipsLeaveTheData : Prop :=
  ∀ (s : State) (r : Code), ∃ (t u : State) (d : Info),
    exec (.dec r) s = .next t ∧ exec (.ext r) s = .next u ∧ u.results = .info d :: s.results ∧
    (t.decSynO ∈ [0b000#3, 0b001#3, 0b010#3, 0b100#3] → t.decDataO = d ^^^ 0b0000#4 ∧ t.decDataO = d) ∧
    (t.decSynO = 0b011#3 → t.decDataO = d ^^^ 0b1000#4) ∧
    (t.decSynO = 0b101#3 → t.decDataO = d ^^^ 0b0100#4) ∧
    (t.decSynO = 0b110#3 → t.decDataO = d ^^^ 0b0010#4) ∧
    (t.decSynO = 0b111#3 → t.decDataO = d ^^^ 0b0001#4)

/-! ### The whole block -/

/-- R32 and R20, inferences the spec marks as its own: an evaluation of the encoder path leaves every port of the decoder path as it was, one of the decoder path
every port of the encoder path, and the others every port; and the outputs of each path depend on
the input of their own path only. That LOC, EXT and the conversions move no port is the model's reading (log entry 7). -/
def Obligations.PathsAreIndependent : Prop :=
  (∀ (i : Instr) (s t : State), exec i s = .next t →
    (i.op ∈ [Op.pgen, .enc] → ∀ p : Port, p.onEncoderPath = false → t.port p = s.port p) ∧
    (i.op ∈ [Op.syn, .cor, .dec] → ∀ p : Port, p.onEncoderPath = true → t.port p = s.port p) ∧
    (i.op ∈ [Op.tobits, .frombits, .loc, .ext] → ∀ p : Port, t.port p = s.port p)) ∧
  (∀ s t : State,
    (s.encDataI = t.encDataI → ∀ p : Port, p.onEncoderPath = true → s.port p = t.port p) ∧
    (s.decRxI = t.decRxI → ∀ p : Port, p.onEncoderPath = false → s.port p = t.port p))

/-- What an evaluation reads is what its output ports carry (the output column of R39): for PGEN, ENC, SYN and DEC always; for
COR with the block's own mask; for LOC and EXT on the block's own internal word (log entry 7). -/
def Obligations.ResultsAreReadAtTheOutputPorts : Prop :=
  ∀ (i : Instr) (s : State), ∃ (t : State) (r : Result),
    exec i s = .next t ∧ t.results = r :: s.results ∧
    (i.op ∈ [Op.tobits, .frombits, .pgen, .enc, .syn, .dec] → r.wires = i.op.outputs.map t.port) ∧
    (∀ w f : Code, i = .cor w f → f = t.decFlipO → r.wires = i.op.outputs.map t.port) ∧
    (i = .loc s.decSynO ∨ i = .ext s.decCorO → r.wires = i.op.outputs.map t.port)

/-- R18 and R19: every port has exactly the width its table gives it. No port carries more bits; each of its wires is 1 in
some state and 0 in some state; and the values it can carry are, for the inputs, the parity bits, the syndrome and the
decoded word, all of that width, for the codeword and the corrected word the sixteen codewords, and for the flip mask
zero and the seven one-hot words. The last three are inferences the spec marks as its own (R53, R63). -/
def Obligations.PortValuesFitTheirWidths : Prop :=
  (∀ (s : State) (p : Port), s.port p < 2 ^ p.format.width) ∧
  (∀ p ∈ [(Port.enc_data_i, 4), (.dec_rx_i, 7), (.enc_p1_o, 1), (.enc_p2_o, 1), (.enc_p4_o, 1), (.enc_code_o, 7),
    (.dec_syn_o, 3), (.dec_flip_o, 7), (.dec_cor_o, 7), (.dec_data_o, 4)], p.1.format.width = p.2) ∧
  (∀ (p : Port) (i : Nat), i < p.format.width →
    (∃ s : State, (s.port p).testBit i = true) ∧ (∃ s : State, (s.port p).testBit i = false)) ∧
  (∀ p ∈ [Port.enc_data_i, .dec_rx_i, .enc_p1_o, .enc_p2_o, .enc_p4_o, .dec_syn_o, .dec_data_o],
    ∀ n < 2 ^ p.format.width, ∃ s : State, s.port p = n) ∧
  (∀ n : Nat, (∃ s : State, s.port .enc_code_o = n) ↔
    n ∈ [0, 15, 22, 25, 37, 42, 51, 60, 67, 76, 85, 90, 102, 105, 112, 127]) ∧
  (∀ n : Nat, (∃ s : State, s.port .dec_flip_o = n) ↔ n ∈ [0, 1, 2, 4, 8, 16, 32, 64]) ∧
  (∀ n : Nat, (∃ s : State, s.port .dec_cor_o = n) ↔
    n ∈ [0, 15, 22, 25, 37, 42, 51, 60, 67, 76, 85, 90, 102, 105, 112, 127])

/-- R16 and R60, from the consumer's side: comparing `dec_syn_o` with 0 tells whether the received word is a
codeword, and so misses every error that is one. -/
def Obligations.ConsumerSeesOnlyNonCodewords : Prop :=
  ∀ s : State,
    (consumerSeesError s = false ↔ ∃ d : Info, s.decRxI = encodeWord d) ∧
    (∀ d e : Info, s.decRxI = inject (encodeWord d) (encodeWord e) → consumerSeesError s = false)

/-- R13: what is read at an evaluation is a fixed function of its operands, and not of anything before; it is the one result
added, and the lines still waiting are untouched. -/
def Obligations.ResultsDependOnOperandsAlone : Prop :=
  ∃ f : Instr → Result, ∀ (i : Instr) (s : State), ∃ t : State,
    exec i s = .next t ∧ t.results = f i :: s.results ∧ t.pending = s.pending

/-- R28: repeating an evaluation with the same operands changes no port and reads the same result again; and after an
evaluation that drives a path, all outputs of that path come from the same input value. -/
def Obligations.RepeatingAnEvaluationChangesNothing : Prop :=
  ∀ (i : Instr) (s : State), ∃ t u : State,
    exec i s = .next t ∧ exec i t = .next u ∧
    (∀ p : Port, u.port p = t.port p) ∧ u.results.head? = t.results.head? ∧
    (i.op ∈ [Op.pgen, .enc] → t.encP1O = parity1 t.encDataI ∧ t.encP2O = parity2 t.encDataI ∧
      t.encP4O = parity4 t.encDataI ∧ t.encCodeO = encodeWord t.encDataI) ∧
    (i.op ∈ [Op.syn, .cor, .dec] → t.decSynO = syndrome t.decRxI ∧ t.decFlipO = flipMask t.decRxI ∧
      t.decCorO = correctedWord t.decRxI ∧ t.decDataO = decodeWord t.decRxI)

/-- R21 and R90: with both inputs at zero every output is zero, in whatever state the zeros are driven; and the model's state
after reset is such a state. That its inputs are zero, that no line is presented and that nothing has been read are the
model's choices (log entries 2, 5 and 6). -/
def Obligations.ZeroInputsGiveZeroOutputs : Prop :=
  (∀ s : State, ∃ t u : State, exec (.enc 0b0000#4) s = .next t ∧ exec (.dec 0b0000000#7) t = .next u ∧
    ∀ p : Port, u.port p = 0) ∧
  (∀ p : Port, State.reset.port p = 0) ∧
  State.reset.pending = [] ∧ State.reset.results = []

/-- The state after reset meets the invariant: its output ports carry the functions of its inputs, and what has been read is
possible. Its zero inputs and its empty list of results are the model's choices (log entries 2 and 6). -/
def Obligations.ResetIsSettled : Prop := State.reset.Inv

/-- R13 and R19: every step keeps every output the function of the current inputs; and whatever has been read stays a result
the block can give: a codeword read is one of the sixteen, a flip mask read is zero or one-hot (inferences the spec marks
as its own, R53 and R61; the list of results is the model's, log entry 6). -/
def Obligations.StepKeepsOutputsSettled : Prop :=
  ∀ s t : State, s.Inv → step s = .next t → t.Inv

/-- R19 and R20, as relations between the ports of any state: the parity outputs are taps of the codeword, the flip
mask is zero or one-hot, the corrected word is the received word XOR the flip mask and a codeword, the data output is
its data positions, and a syndrome of 0 goes with no flip. -/
def Obligations.OutputsAreTapsOfInternalSignals : Prop :=
  ∀ s : State,
    s.encP1O = s.encCodeO.getLsbD 6 ∧ s.encP2O = s.encCodeO.getLsbD 5 ∧ s.encP4O = s.encCodeO.getLsbD 3 ∧
    (∃ d : Info, s.encCodeO = encodeWord d) ∧ syndrome s.encCodeO = 0#3 ∧
    popcount s.decFlipO ≤ 1 ∧ s.decFlipO = locate s.decSynO.toNat ∧
    s.decCorO = s.decRxI ^^^ s.decFlipO ∧ (∃ d : Info, s.decCorO = encodeWord d ∧ s.decDataO = d) ∧
    (s.decSynO = 0#3 ↔ s.decCorO = s.decRxI)

/-- In every state, evaluating LOC, COR and EXT on the block's own internal words reads what the block's ports carry and
moves no port: the reading of log entry 7 agrees with the block. -/
def Obligations.UnitsAgreeWithTheBlock : Prop :=
  ∀ s : State,
    exec (.loc s.decSynO) s = .next { s with results := .flip s.decFlipO :: s.results } ∧
    exec (.cor s.decRxI s.decFlipO) s = .next { s with results := .corrected s.decCorO :: s.results } ∧
    exec (.ext s.decCorO) s = .next { s with results := .info s.decDataO :: s.results }

/-- R83 (and R79): every operation, for every operand and in every state, completes in one evaluation with one defined result;
there is no fault at all. -/
def Obligations.EveryEvaluationCompletes : Prop :=
  (∀ (i : Instr) (s : State), ∃ (t : State) (r : Result), exec i s = .next t ∧ t.results = r :: s.results) ∧
  (∀ _ : Fault, False)

/-- No step stops and a run of any length goes on, from every state. A step with nothing presented is the model's own (log
entry 5). -/
def Obligations.NoRunEverStops : Prop :=
  (∀ s : State, ∃ t : State, step s = .next t) ∧ (∀ (s : State) (k : Nat), s.RunsFor k)

/-- From every state, as many steps as lines are presented make all of them: no line is left, each has added its own result
in order, the inputs carry the last word driven on each, and the outputs are settled on them. The queue is the model's own
(log entry 5). -/
def Obligations.RunAnswersEveryPresentedLine : Prop :=
  ∃ f : Instr → Result, ∀ s : State, ∃ t : State,
    Sys2Proof.core.run s.pending.length s = .next t ∧
    t.pending = [] ∧
    t.results = ((s.pending.map fun l => f (decode l)).reverse) ++ s.results ∧
    t.inputs = s.pending.foldl (fun i l => drivenInputs (decode l) i) s.inputs ∧
    t.Settled

/-- Evaluations do not interact (R29). Presented in any other order, the same lines read the same results, each as often. The
queue is the model's own (log entry 5). -/
def Obligations.OrderOfEvaluationsDoesNotMatter : Prop :=
  ∀ (s : State) (ls ls' : List Line), ls.Perm ls' → ∃ t t' : State,
    Sys2Proof.core.run ls.length { s with pending := ls } = .next t ∧
    Sys2Proof.core.run ls'.length { s with pending := ls' } = .next t' ∧
    t.results.Perm t'.results

/-! ### The harness -/

/-- R71, its inverse an inference the spec marks as its own: error injection is XOR, position by position, and its own inverse; the zero pattern flips nothing and the all-ones
pattern complements; a wide pattern is cut to seven bits. -/
def Obligations.InjectionFlipsThePositions : Prop :=
  (∀ (c e : Code) (p : Nat), 1 ≤ p → p ≤ 7 → position (inject c e) p = (position c p ^^ position e p)) ∧
  (∀ c e : Code, inject (inject c e) e = c) ∧
  (∀ c : Code, inject c 0b0000000#7 = c ∧ inject c 0b1111111#7 = ~~~c) ∧
  (∀ (m : State) (env : List Value) (c v : Nat),
    runLine ⟨m, env⟩ (.inj (.lit (.int c)) (.lit (.int v))) =
      .ok ⟨m, env ++ [.int (inject (trunc 7 c) (trunc 7 v)).toNat]⟩) ∧
  inject 0b0110011#7 0b0000100#7 = 0b0110111#7

/-- R72: the weight of a word is the integer sum of its bits, from 0 to 7. -/
def Obligations.WeightCountsTheBits : Prop :=
  (∀ e : Code, weight e = ((toBits e.toNat 7).filter (· == true)).length ∧ weight e ≤ 7) ∧
  weight 0b0000000#7 = 0 ∧ weight 0b1111111#7 = 7 ∧ weight 0b0000100#7 = 1 ∧ weight 0b0110011#7 = 4

/-- R74, with the ascending order in a class R73 gives: the class of weight `k` holds, ascending, exactly the error patterns of
weight `k`; the seven classes hold each of the 127 patterns exactly once; their sizes are the binomial coefficients. That
the mapping lists its keys from 1 to 7 is the model's choice, the order in which the report visits them (log entry 13). -/
def Obligations.WeightClassesPartitionThePatterns : Prop :=
  (∀ (k : Nat) (e : Code), e ∈ weightClass k ↔ (e ≠ 0#7 ∧ weight e = k)) ∧
  (∀ k : Nat, (weightClass k).Pairwise fun a b => a.toNat < b.toNat) ∧
  (∀ e : Code, e ≠ 0#7 → ∃ k : Nat, 1 ≤ k ∧ k ≤ 7 ∧ e ∈ weightClass k ∧ ∀ k' : Nat, e ∈ weightClass k' → k' = k) ∧
  (∀ k : Nat, 1 ≤ k → k ≤ 7 → (weightClass k).length = Nat.choose 7 k) ∧
  (classify.map fun m => m.2.length).sum = 127 ∧
  classify.map Prod.fst = [1, 2, 3, 4, 5, 6, 7] ∧
  (∀ m ∈ classify, m.2 = weightClass m.1)

/-- R75: RATE counts the patterns of the class after which the machine, given ENC and then DEC, reads the reference word;
the rate is the exact fraction, and no class 1 to 7 is empty. -/
def Obligations.RateCountsTheRepairs : Prop :=
  (∀ (s : State) (w : Info) (e : Code), ∃ t u : State,
    exec (.enc w) s = .next t ∧ exec (.dec (inject t.encCodeO e)) t = .next u ∧
    (repaired w (encodeWord w) e = true ↔ u.decDataO = w)) ∧
  (∀ (w : Info) (k : Nat), 1 ≤ k → k ≤ 7 →
    (rate w k).nk = ((weightClass k).filter (repaired w (encodeWord w))).length ∧
    (rate w k).size = (weightClass k).length ∧ (rate w k).size ≠ 0 ∧
    (rate w k).ck = ((rate w k).nk : Rat) / ((rate w k).size : Rat)) ∧
  rate Config.wRef 1 = ⟨7, 7, 1⟩

/-- R76, an inference the spec marks as its own: for every reference word, class 1 is repaired in all 7 cases with rate exactly
1, and every class 2 to 7 in none with rate exactly 0; and pattern by pattern, the machine given ENC and then DEC reads the
reference word back for class 1 and another word for every other class. -/
def Obligations.CorrectionRatesAreExact : Prop :=
  ∀ (s : State) (w : Info) (k : Nat), 1 ≤ k → k ≤ 7 →
    (rate w k).size = Nat.choose 7 k ∧
    (rate w k).nk = (if k = 1 then 7 else 0) ∧
    (rate w k).ck = (if k = 1 then 1 else 0) ∧
    ∃ t : State, exec (.enc w) s = .next t ∧
      ∀ e ∈ weightClass k, ∃ u : State, exec (.dec (inject t.encCodeO e)) t = .next u ∧ (u.decDataO = w ↔ k = 1)

/-- R77: the report's demonstration, run as a program of named lines from any state of the machine. -/
def Obligations.DemonstrationIsCorrected : Prop :=
  ∀ s : State, ∃ p : ProgState,
    runProgram s [
      .eval .enc [.lit (.int Config.wRef.toNat)],
      .inj (.name 0) (.lit (.int Config.eDemo.toNat)),
      .eval .syn [.name 1],
      .eval .loc [.name 2],
      .eval .cor [.name 1, .name 3],
      .eval .ext [.name 4]] = .ok p ∧
    p.env = [.int 0b0110011, .int 0b0110111, .int 0b101, .int 0b0000100, .int 0b0110011, .int 0b1011] ∧
    p.machine.encCodeO = 0b0110011#7 ∧ p.machine.decSynO = 0b101#3 ∧ p.machine.decFlipO = 0b0000100#7 ∧
    p.machine.decCorO = 0b0110011#7 ∧ p.machine.decDataO = 0b1011#4

/-! ### The absence of stored outputs, and the analysis run -/

/-- R13: no output is stored. In every state, one no run reaches included, every output port carries the wires of its unit for
the current inputs, and two states with the same inputs carry the same values on all ports. That the model's state is the
two input values beside the host's queue and the consumer's list is log entries 1, 5 and 6. -/
def Obligations.EveryStateIsSettled : Prop :=
  (∀ s : State, s.Settled) ∧
  (∀ s t : State, s.inputs = t.inputs → ∀ p : Port, s.port p = t.port p)

/-- R78: the analysis run, from any state of the machine and for any reference word, completes. It is a run of 128 steps, ENC
once and DEC once for each of the 127 error patterns XORed onto that codeword; it reads the codeword and the 127 decoded
words and answers the rates of R75, which are those of R76; and it leaves nothing in the block but the words last driven.
The order of the classes, the queue and the list of results are the model's own (log entries 5, 6 and 13). -/
def Obligations.AnalysisRunUsesTheBlock : Prop :=
  ∀ (w : Info) (s : State), ∃ (a : Analysis) (c : Code) (es : List Code),
    analyze w s = some a ∧ a.code = c ∧ c = encodeWord w ∧
    es = (classify.map Prod.snd).flatten ∧ es.length = 127 ∧ es.Nodup ∧ (∀ e : Code, e ∈ es ↔ e ≠ 0#7) ∧
    Sys2Proof.core.run 128 { s with
      pending := encode (.enc w) :: es.map (fun e => encode (.dec (inject c e))) ++ s.pending } = .next a.machine ∧
    a.machine = { s with
      encDataI := w, decRxI := inject c 0b1111111#7
      results := (es.map fun e => Result.info (decodeWord (inject c e))).reverse ++ .code c :: s.results } ∧
    a.rates = [(1, rate w 1), (2, rate w 2), (3, rate w 3), (4, rate w 4), (5, rate w 5), (6, rate w 6), (7, rate w 7)] ∧
    a.rates = [(1, ⟨7, 7, 1⟩), (2, ⟨0, 21, 0⟩), (3, ⟨0, 35, 0⟩), (4, ⟨0, 35, 0⟩), (5, ⟨0, 21, 0⟩), (6, ⟨0, 7, 0⟩),
      (7, ⟨0, 1, 0⟩)]

/-- The sweep of 95_test_vectors.md P7 as a program of named lines: from any state of the machine and for any reference word
it runs to its end, leaves the machine as the analysis run does, and its lines stand for the reference word, its codeword,
the mapping of classes and the seven rates. The writing of programs is the model's own (log entry 15). -/
def Obligations.SweepProgramIsTheAnalysisRun : Prop :=
  ∀ (w : Info) (s : State), ∃ (p : ProgState) (a : Analysis),
    runProgram s (sweepProgram w) = .ok p ∧ analyze w s = some a ∧ p.machine = a.machine ∧
    p.env = [.int w.toNat, .int (encodeWord w).toNat, .classes classify, .rate ⟨7, 7, 1⟩, .rate ⟨0, 21, 0⟩,
      .rate ⟨0, 35, 0⟩, .rate ⟨0, 35, 0⟩, .rate ⟨0, 21, 0⟩, .rate ⟨0, 7, 0⟩, .rate ⟨0, 1, 0⟩]
end

