-- ==== Sys2Proof/Laws/Operands.lean ====
section
/-! SUPPORT. What truncation, the conversion and the bit names do, said once. -/

namespace Sys2Proof.Machine

@[simp] theorem trunc_toNat (L v : Nat) : (trunc L v).toNat = v % 2 ^ L := rfl

@[simp] theorem trunc_of_toNat {L : Nat} (w : BitVec L) : trunc L w.toNat = w := by
  simp [trunc]

@[simp] theorem toBits_length (v L : Nat) : (toBits v L).length = L := by
  simp [toBits]

theorem toBits_getElem? (v L j : Nat) (h : j < L) :
    (toBits v L)[j]? = some (v.testBit (L - 1 - j)) := by
  simp [toBits, h]

@[simp] theorem fromBits_nil : fromBits [] = 0 := rfl

/-- FROMBITS takes one more bit by doubling and adding it (40_conversion.md R47). -/
theorem fromBits_concat (q : List Bit) (b : Bit) :
    fromBits (q ++ [b]) = 2 * fromBits q + b.toNat := by
  have key : ∀ n : Nat, (n <<< 1) ||| b.toNat = 2 * n + b.toNat := by
    intro n
    rw [Nat.shiftLeft_eq, pow_one, mul_comm]
    exact (Nat.two_pow_add_eq_or_of_lt (i := 1) (Bool.toNat_lt b) n).symm
  simp [fromBits, List.foldl_append, key]

/-- A sequence of `L` bits is an integer below `2^L` (40_conversion.md R47). -/
theorem fromBits_lt (q : List Bit) : fromBits q < 2 ^ q.length := by
  induction q using List.reverseRecOn with
  | nil => decide
  | append_singleton q b ih =>
    rw [fromBits_concat, List.length_append, List.length_singleton, pow_succ]
    have := Bool.toNat_lt b
    omega

theorem position_eq_codeBit (c : Code) (p : Nat) (h : 1 ≤ p) : position c p = codeBit c (p - 1) := by
  unfold position codeBit
  congr 1
  omega

end Sys2Proof.Machine
end

