-- ==== Sys2Proof/Laws/State.lean ====
section
/-! SUPPORT. One lemma per field, and per output port, per update of State, each by rfl. -/

namespace Sys2Proof.Machine

variable (s : State)

/-! ### The outputs as functions of the inputs (10_state.md R13) -/

theorem encP1O_eq : s.encP1O = parity1 s.encDataI := rfl
theorem encP2O_eq : s.encP2O = parity2 s.encDataI := rfl
theorem encP4O_eq : s.encP4O = parity4 s.encDataI := rfl
theorem encCodeO_eq : s.encCodeO = encodeWord s.encDataI := rfl
theorem decSynO_eq : s.decSynO = syndrome s.decRxI := rfl
theorem decFlipO_eq : s.decFlipO = flipMask s.decRxI := rfl
theorem decCorO_eq : s.decCorO = correctedWord s.decRxI := rfl
theorem decDataO_eq : s.decDataO = decodeWord s.decRxI := rfl

/-! ### Updates -/

@[simp] theorem driveEnc_encDataI (d : Info) : (driveEnc d s).encDataI = d := rfl
@[simp] theorem driveEnc_decRxI (d : Info) : (driveEnc d s).decRxI = s.decRxI := rfl
@[simp] theorem driveEnc_encP1O (d : Info) : (driveEnc d s).encP1O = parity1 d := rfl
@[simp] theorem driveEnc_encP2O (d : Info) : (driveEnc d s).encP2O = parity2 d := rfl
@[simp] theorem driveEnc_encP4O (d : Info) : (driveEnc d s).encP4O = parity4 d := rfl
@[simp] theorem driveEnc_encCodeO (d : Info) : (driveEnc d s).encCodeO = encodeWord d := rfl
@[simp] theorem driveEnc_decSynO (d : Info) : (driveEnc d s).decSynO = s.decSynO := rfl
@[simp] theorem driveEnc_decFlipO (d : Info) : (driveEnc d s).decFlipO = s.decFlipO := rfl
@[simp] theorem driveEnc_decCorO (d : Info) : (driveEnc d s).decCorO = s.decCorO := rfl
@[simp] theorem driveEnc_decDataO (d : Info) : (driveEnc d s).decDataO = s.decDataO := rfl
@[simp] theorem driveEnc_pending (d : Info) : (driveEnc d s).pending = s.pending := rfl
@[simp] theorem driveEnc_results (d : Info) : (driveEnc d s).results = s.results := rfl

@[simp] theorem driveDec_encDataI (r : Code) : (driveDec r s).encDataI = s.encDataI := rfl
@[simp] theorem driveDec_decRxI (r : Code) : (driveDec r s).decRxI = r := rfl
@[simp] theorem driveDec_encP1O (r : Code) : (driveDec r s).encP1O = s.encP1O := rfl
@[simp] theorem driveDec_encP2O (r : Code) : (driveDec r s).encP2O = s.encP2O := rfl
@[simp] theorem driveDec_encP4O (r : Code) : (driveDec r s).encP4O = s.encP4O := rfl
@[simp] theorem driveDec_encCodeO (r : Code) : (driveDec r s).encCodeO = s.encCodeO := rfl
@[simp] theorem driveDec_decSynO (r : Code) : (driveDec r s).decSynO = syndrome r := rfl
@[simp] theorem driveDec_decFlipO (r : Code) : (driveDec r s).decFlipO = flipMask r := rfl
@[simp] theorem driveDec_decCorO (r : Code) : (driveDec r s).decCorO = correctedWord r := rfl
@[simp] theorem driveDec_decDataO (r : Code) : (driveDec r s).decDataO = decodeWord r := rfl
@[simp] theorem driveDec_pending (r : Code) : (driveDec r s).pending = s.pending := rfl
@[simp] theorem driveDec_results (r : Code) : (driveDec r s).results = s.results := rfl

@[simp] theorem answer_encDataI (r : Result) : (answer r s).encDataI = s.encDataI := rfl
@[simp] theorem answer_decRxI (r : Result) : (answer r s).decRxI = s.decRxI := rfl
@[simp] theorem answer_encP1O (r : Result) : (answer r s).encP1O = s.encP1O := rfl
@[simp] theorem answer_encP2O (r : Result) : (answer r s).encP2O = s.encP2O := rfl
@[simp] theorem answer_encP4O (r : Result) : (answer r s).encP4O = s.encP4O := rfl
@[simp] theorem answer_encCodeO (r : Result) : (answer r s).encCodeO = s.encCodeO := rfl
@[simp] theorem answer_decSynO (r : Result) : (answer r s).decSynO = s.decSynO := rfl
@[simp] theorem answer_decFlipO (r : Result) : (answer r s).decFlipO = s.decFlipO := rfl
@[simp] theorem answer_decCorO (r : Result) : (answer r s).decCorO = s.decCorO := rfl
@[simp] theorem answer_decDataO (r : Result) : (answer r s).decDataO = s.decDataO := rfl
@[simp] theorem answer_pending (r : Result) : (answer r s).pending = s.pending := rfl
@[simp] theorem answer_results (r : Result) : (answer r s).results = r :: s.results := rfl

@[simp] theorem present_encDataI (l : Line) : (present l s).encDataI = s.encDataI := rfl
@[simp] theorem present_decRxI (l : Line) : (present l s).decRxI = s.decRxI := rfl
@[simp] theorem present_encP1O (l : Line) : (present l s).encP1O = s.encP1O := rfl
@[simp] theorem present_encP2O (l : Line) : (present l s).encP2O = s.encP2O := rfl
@[simp] theorem present_encP4O (l : Line) : (present l s).encP4O = s.encP4O := rfl
@[simp] theorem present_encCodeO (l : Line) : (present l s).encCodeO = s.encCodeO := rfl
@[simp] theorem present_decSynO (l : Line) : (present l s).decSynO = s.decSynO := rfl
@[simp] theorem present_decFlipO (l : Line) : (present l s).decFlipO = s.decFlipO := rfl
@[simp] theorem present_decCorO (l : Line) : (present l s).decCorO = s.decCorO := rfl
@[simp] theorem present_decDataO (l : Line) : (present l s).decDataO = s.decDataO := rfl
@[simp] theorem present_pending (l : Line) : (present l s).pending = l :: s.pending := rfl
@[simp] theorem present_results (l : Line) : (present l s).results = s.results := rfl

end Sys2Proof.Machine
end

