-- ==== Sys2Proof/Laws/Ops.lean ====
section
/-! SUPPORT. One lemma for each shared operation: the wires of the encoder's and decoder's words, what driving a
port does to the records, and what fetching answers. -/

namespace Sys2Proof.Machine

/-! ### Wires -/

theorem encodeWord_wire6 : ∀ d : Info, (encodeWord d).getLsbD 6 = parity1 d := by decide
theorem encodeWord_wire5 : ∀ d : Info, (encodeWord d).getLsbD 5 = parity2 d := by decide
theorem encodeWord_wire4 : ∀ d : Info, (encodeWord d).getLsbD 4 = d.getLsbD 3 := by decide
theorem encodeWord_wire3 : ∀ d : Info, (encodeWord d).getLsbD 3 = parity4 d := by decide
theorem encodeWord_wire2 : ∀ d : Info, (encodeWord d).getLsbD 2 = d.getLsbD 2 := by decide
theorem encodeWord_wire1 : ∀ d : Info, (encodeWord d).getLsbD 1 = d.getLsbD 1 := by decide
theorem encodeWord_wire0 : ∀ d : Info, (encodeWord d).getLsbD 0 = d.getLsbD 0 := by decide

theorem locate_zero : locate 0 = 0#7 := rfl

theorem locate_inside (n : Nat) (h1 : 1 ≤ n) (h7 : n ≤ 7) : locate n = unit7 n := by
  have hs : 6 - (n - 1) = 7 - n := by omega
  simp [locate, unit7, show n ≠ 0 by omega, show n - 1 ≤ 6 by omega, hs]

/-- The guard's failing branch skips the flip (43_locator_corrector.md R62). -/
theorem locate_outside (n : Nat) (h : 7 < n) : locate n = 0#7 := by
  simp [locate, show ¬n - 1 ≤ 6 by omega]

/-! ### Records -/

@[simp] theorem inputs_driveEnc (d : Info) (s : State) : (driveEnc d s).inputs = ⟨d, s.decRxI⟩ := rfl
@[simp] theorem inputs_driveDec (r : Code) (s : State) : (driveDec r s).inputs = ⟨s.encDataI, r⟩ := rfl
@[simp] theorem inputs_answer (r : Result) (s : State) : (answer r s).inputs = s.inputs := rfl
@[simp] theorem outputs_answer (r : Result) (s : State) : (answer r s).outputs = s.outputs := rfl
@[simp] theorem inputs_present (l : Line) (s : State) : (present l s).inputs = s.inputs := rfl
@[simp] theorem outputs_present (l : Line) (s : State) : (present l s).outputs = s.outputs := rfl

@[simp] theorem port_answer (r : Result) (s : State) (p : Port) : (answer r s).port p = s.port p := by
  cases p <;> rfl

theorem port_driveEnc_decoder (d : Info) (s : State) (p : Port) (h : p.onEncoderPath = false) :
    (driveEnc d s).port p = s.port p := by
  cases p <;> first | rfl | cases h

theorem port_driveDec_encoder (r : Code) (s : State) (p : Port) (h : p.onEncoderPath = true) :
    (driveDec r s).port p = s.port p := by
  cases p <;> first | rfl | cases h

/-! ### Fetching -/

theorem fetch_none (s : State) : fetch s = none ↔ s.pending = [] := by
  unfold fetch
  split <;> simp_all

theorem fetch_some (s : State) (l : Line) (rest : List Line) (h : s.pending = l :: rest) :
    fetch s = some (l, { s with pending := rest }) := by
  unfold fetch
  split <;> simp_all

@[simp] theorem fetch_present (l : Line) (s : State) : fetch (present l s) = some (l, s) := rfl

end Sys2Proof.Machine
end

