-- ==== Sys2Proof/Laws/Exec.lean ====
section
/-! SUPPORT. One equation per meaning, in terms of the shared operations, and what any evaluation can do at all. -/

namespace Sys2Proof.Machine

variable (s : State)

theorem exec_tobits (v len : Nat) : exec (.tobits v len) s = .next (answer (.bits (toBits v len)) s) := rfl

theorem exec_frombits (q : List Bit) : exec (.frombits q) s = .next (answer (.integer (fromBits q)) s) := rfl

theorem exec_pgen (d : Info) :
    exec (.pgen d) s = .next (answer (.parity (parity1 d) (parity2 d) (parity4 d)) (driveEnc d s)) := rfl

theorem exec_enc (d : Info) : exec (.enc d) s = .next (answer (.code (encodeWord d)) (driveEnc d s)) := rfl

theorem exec_syn (r : Code) : exec (.syn r) s = .next (answer (.syndrome (syndrome r)) (driveDec r s)) := rfl

theorem exec_loc (y : Synd) : exec (.loc y) s = .next (answer (.flip (locate y.toNat)) s) := rfl

theorem exec_cor (r f : Code) :
    exec (.cor r f) s = .next (answer (.corrected (correct r f)) (driveDec r s)) := rfl

theorem exec_ext (c : Code) : exec (.ext c) s = .next (answer (.info (extract c)) s) := rfl

theorem exec_dec (r : Code) : exec (.dec r) s = .next (answer (.info (decodeWord r)) (driveDec r s)) := rfl

/-- All an evaluation can do: it appends one result, and drives no port, or the encoder path, or the decoder path. -/
theorem exec_inversion {i : Instr} {s t : State} (h : exec i s = .next t) :
    ∃ r : Result, t = answer r s ∨ (∃ d, t = answer r (driveEnc d s)) ∨ (∃ w, t = answer r (driveDec w s)) := by
  cases i <;>
    simp only [exec_tobits, exec_frombits, exec_pgen, exec_enc, exec_syn, exec_loc, exec_cor, exec_ext, exec_dec,
      Host.Outcome.next.injEq] at h
  case tobits => exact ⟨_, .inl h.symm⟩
  case frombits => exact ⟨_, .inl h.symm⟩
  case pgen => exact ⟨_, .inr (.inl ⟨_, h.symm⟩)⟩
  case enc => exact ⟨_, .inr (.inl ⟨_, h.symm⟩)⟩
  case syn => exact ⟨_, .inr (.inr ⟨_, h.symm⟩)⟩
  case loc => exact ⟨_, .inl h.symm⟩
  case cor => exact ⟨_, .inr (.inr ⟨_, h.symm⟩)⟩
  case ext => exact ⟨_, .inl h.symm⟩
  case dec => exact ⟨_, .inr (.inr ⟨_, h.symm⟩)⟩

theorem step_present (l : Line) : step (present l s) = exec (decode l) s := rfl

end Sys2Proof.Machine
end

