-- ==== Sys2Proof/Laws/Analysis.lean ====
section
/-! SUPPORT. What the analyzer's operations on the machine answer, each said once. -/

namespace Sys2Proof.Machine

/-- The machine after DEC of one received word. -/
def afterDec (t : State) (r : Code) : State := answer (.info (decodeWord r)) (driveDec r t)

theorem decode_encode_enc (w : Info) : decode (encode (.enc w)) = .enc w := by simp [decode, encode]

theorem decode_encode_dec (r : Code) : decode (encode (.dec r)) = .dec r := by simp [decode, encode]

theorem invokeEncode_eq (w : Info) (s : State) :
    invokeEncode w s = some (encodeWord w, answer (.code (encodeWord w)) (driveEnc w s)) := by
  simp [invokeEncode, evaluate, step_present, decode_encode_enc, exec_enc]

theorem invokeDecode_eq (r : Code) (s : State) : invokeDecode r s = some (decodeWord r, afterDec s r) := by
  simp [invokeDecode, evaluate, step_present, decode_encode_dec, exec_dec, afterDec]

theorem tryPattern_eq (w : Info) (c : Code) (a : Tally) (e : Code) :
    tryPattern w c a e =
      some ⟨afterDec a.machine (inject c e), if repaired w c e then a.nk + 1 else a.nk⟩ := by
  simp [tryPattern, invokeDecode_eq, repaired]

/-- Trying a list of patterns counts the repaired ones and decodes each of them once, in order. -/
theorem foldlM_tryPattern (w : Info) (c : Code) (m : List Code) (a : Tally) :
    m.foldlM (tryPattern w c) a =
      some ⟨m.foldl (fun t e => afterDec t (inject c e)) a.machine, a.nk + m.countP (repaired w c)⟩ := by
  induction m generalizing a with
  | nil => rfl
  | cons e m ih =>
    rw [List.foldlM_cons, tryPattern_eq, Option.bind_eq_bind, Option.bind_some, ih, List.foldl_cons, List.countP_cons]
    congr 2
    split <;> dsimp only <;> omega

/-- RATE on the machine answers the count, the size and the fraction, and leaves the machine after those decodes. -/
theorem rateOn_eq (w : Info) (c : Code) (m : List Code) (s : State) :
    rateOn w c m s =
      some (⟨m.countP (repaired w c), m.length, mkRat (m.countP (repaired w c)) m.length⟩,
        m.foldl (fun t e => afterDec t (inject c e)) s) := by
  simp [rateOn, foldlM_tryPattern]

end Sys2Proof.Machine
end

