-- ==== Sys2Proof/Laws/PerInstr.lean ====
section
/-! SUPPORT. Family WordFits: the operand word of a well-formed evaluation has no more bits than its line presents
(30_encoding.md R40, R43). -/

namespace Sys2Proof.Laws.WordFits

open Sys2Proof.Machine

/-- A well-formed evaluation is presented under its own operation, and its operand word fits the line's bits. -/
def Statement (i : Instr) : Prop :=
  i.wellFormed = true → (encode i).op = i.op ∧ (encode i).word < 2 ^ (encode i).nbits

theorem tobits (v len : Nat) : Statement (.tobits v len) := by
  intro h
  simp only [Instr.wellFormed, Bool.and_eq_true, decide_eq_true_eq] at h
  exact ⟨rfl, h.2⟩

theorem frombits (q : List Bit) : Statement (.frombits q) := fun _ => ⟨rfl, fromBits_lt q⟩

theorem pgen (d : Info) : Statement (.pgen d) := fun _ => ⟨rfl, d.isLt⟩

theorem enc (d : Info) : Statement (.enc d) := fun _ => ⟨rfl, d.isLt⟩

theorem syn (r : Code) : Statement (.syn r) := fun _ => ⟨rfl, r.isLt⟩

theorem loc (s : Synd) : Statement (.loc s) := fun _ => ⟨rfl, s.isLt⟩

theorem cor (r f : Code) : Statement (.cor r f) := by
  intro _
  refine ⟨rfl, ?_⟩
  show (r.toNat <<< 7) ||| f.toNat < 2 ^ 14
  have hr : r.toNat <<< 7 < 2 ^ 14 := by
    have := r.isLt
    rw [Nat.shiftLeft_eq]
    omega
  have hf : f.toNat < 2 ^ 14 := by
    have := f.isLt
    omega
  exact Nat.or_lt_two_pow hr hf

theorem ext (c : Code) : Statement (.ext c) := fun _ => ⟨rfl, c.isLt⟩

theorem dec (r : Code) : Statement (.dec r) := fun _ => ⟨rfl, r.isLt⟩

end Sys2Proof.Laws.WordFits
end

