-- ==== Sys2Proof/Laws/Run.lean ====
section
/-! SUPPORT. How a run and a program unfold, one step at a time. -/

namespace Sys2Proof.Machine

theorem run_zero (s : State) : Sys2Proof.core.run 0 s = .next s := rfl

theorem core_run_succ (M : Host.Core) (k : Nat) {s t : M.State} (h : M.step s = .next t) :
    M.run (k + 1) s = M.run k t := by
  simp only [Host.Core.run, h]

/-- A run of one more step is a run from the next state. -/
theorem run_succ {s t : State} (k : Nat) (h : step s = .next t) :
    Sys2Proof.core.run (k + 1) s = Sys2Proof.core.run k t :=
  core_run_succ Sys2Proof.core k h

theorem step_nil {s : State} (h : s.pending = []) : step s = .next s := by
  simp [step, (fetch_none s).2 h]

theorem step_cons {s : State} {l : Line} {rest : List Line} (h : s.pending = l :: rest) :
    step s = exec (decode l) { s with pending := rest } := by
  simp [step, fetch_some s l rest h]

/-- A program line that evaluates: its operands resolve, its line is made, and the machine's answer is the new name's value. -/
theorem runLine_eval {p : ProgState} {op : Op} {args : List Ref} {vs : List Value} {l : Line} {t : State} {r : Result}
    (hv : args.mapM (Ref.resolve p.env) = .ok vs) (hl : lineOfValues op vs = .ok l)
    (ht : exec (decode l) p.machine = .next t) (hr : t.results.head? = some r) :
    runLine p (.eval op args) = .ok ⟨t, p.env ++ [valueOf r]⟩ := by
  simp [runLine, hv, hl, step_present, ht, hr, bind, Except.bind]

end Sys2Proof.Machine
end

