-- ==== Sys2Proof/Machine/Text.lean ====
section
/-! DEFINITION. The spec's own text of words and of evaluations (00_scope.md R12, 30_encoding.md R44): binary text, most significant
bit first, at full width. It has no semantic content (92_eei_decisions.md D18). -/

namespace Sys2Proof.Machine

/-- One bit as text. -/
def bitText (b : Bit) : String := if b then "1" else "0"

/-- Bits as text with a separator between them. -/
def bitsText (sep : String) (q : List Bit) : String := sep.intercalate (q.map bitText)

/-- A word as text at its full width (R12). -/
def wordText {L : Nat} (w : BitVec L) : String := bitsText "" (toBits w.toNat L)

/-- An operand list as text. -/
def operandText : Instr → String
  | .tobits v len => toString v ++ ", " ++ toString len
  | .frombits q => bitsText "," q
  | .pgen d => wordText d
  | .enc d => wordText d
  | .syn r => wordText r
  | .loc s => wordText s
  | .cor r f => wordText r ++ ", " ++ wordText f
  | .ext c => wordText c
  | .dec r => wordText r

/-- A result as text. -/
def resultText : Result → String
  | .bits q => bitsText "," q
  | .integer v => toString v
  | .parity p1 p2 p4 => "p1=" ++ bitText p1 ++ " p2=" ++ bitText p2 ++ " p4=" ++ bitText p4
  | .code c => wordText c
  | .syndrome s => wordText s
  | .flip f => wordText f
  | .corrected c => wordText c
  | .info d => wordText d

/-- The line `MNEMONIC operand[, operand] -> result` (R44). -/
def lineText (i : Instr) (r : Result) : String :=
  i.op.mnemonic ++ " " ++ operandText i ++ " -> " ++ resultText r

end Sys2Proof.Machine
end

