-- ==== Sys2Proof/Tests/Slice0.lean ====
section
/-! SUPPORT. Tests: expected results are the spec's own examples and tables (95_test_vectors.md and the examples of the
rules), and one witness for the hypotheses of every statement that has some. -/

namespace Sys2Proof.Tests

open Sys2Proof Sys2Proof.Machine

/-- A state with given input values and given lines presented. -/
def testState (d : Info) (r : Code) (ls : List Line) : State :=
  { driveDec r (driveEnc d State.reset) with pending := ls }

/-- One field of the next state. -/
def after {α : Type} (f : State → α) (i : Instr) : Option α :=
  match exec i (testState 0b0001#4 0b0011011#7 []) with
  | .next t => some (f t)
  | .fault _ => none
  | .refused _ => none

/-! ### WellFormed: each check refuses an ill-formed term -/

theorem test_wf_length_not_listed : Instr.wellFormed (.tobits 1 5) = false := by decide
theorem test_wf_value_too_large : Instr.wellFormed (.tobits 16 4) = false := by decide
theorem test_wf_boundary : Instr.wellFormed (.tobits 15 4) = true := by decide
theorem test_wf_others : Instr.wellFormed (.cor 127#7 127#7) = true := by decide

/-! ### Decoding: words written out from the layouts of R34 to R38 and the table's `encoding` column -/

theorem test_decode_tobits : decode ⟨.tobits, 7, 0b10110011⟩ = .tobits 179 7 := by decide
theorem test_decode_frombits : decode ⟨.frombits, 3, 0b101⟩ = .frombits [true, false, true] := by decide
theorem test_decode_pgen : decode ⟨.pgen, 4, 0b1000⟩ = .pgen 8#4 := by decide
theorem test_decode_enc_truncates : decode ⟨.enc, 8, 0b11111011⟩ = .enc 0b1011#4 := by decide
theorem test_decode_syn_truncates : decode ⟨.syn, 8, 0b10110111⟩ = .syn 0b0110111#7 := by decide
theorem test_decode_loc_truncates : decode ⟨.loc, 4, 0b1101⟩ = .loc 0b101#3 := by decide
theorem test_decode_cor : decode ⟨.cor, 14, 0b10000000000001⟩ = .cor 0b1000000#7 0b0000001#7 := by decide
theorem test_decode_ext : decode ⟨.ext, 7, 0b1101000⟩ = .ext 0b1101000#7 := by decide
theorem test_decode_dec : decode ⟨.dec, 7, 0b1000000⟩ = .dec 0b1000000#7 := by decide
theorem test_encode_cor : encode (.cor 0b0110111#7 0b0000100#7) = ⟨.cor, 14, 0b01101110000100⟩ := by decide
theorem test_cor_line_wide : decode (corLine 183 132) = .cor 0b0110111#7 0b0000100#7 := by decide
/-- A raw COR word with bits above the two operands, and one shorter than they are. -/
theorem test_cor_word_wide : decode ⟨.cor, 16, 0b1101101110000100⟩ = .cor 0b0110111#7 0b0000100#7 ∧
    decode ⟨.cor, 7, 0b0110111⟩ = .cor 0b0000000#7 0b0110111#7 := by decide

/-! ### One evaluation each (V-CONV, V-ENC, V-SYN, V-LOC, V-COR, V-EXT, V-DEC) -/

theorem test_tobits_truncates :
    after (·.results) (.tobits 27 4) = some [.bits [true, false, true, true]] := by decide
theorem test_tobits_length_zero : after (·.results) (.tobits 5 0) = some [.bits []] := by decide
theorem test_frombits : after (·.results) (.frombits [true, false, false, false, false, false, false]) =
    some [.integer 64] := by decide
theorem test_frombits_empty : after (·.results) (.frombits []) = some [.integer 0] := by decide
theorem test_pgen : after (·.results) (.pgen 0b1011#4) = some [.parity false true false] := by decide
theorem test_pgen_moves_the_codeword : after (·.encCodeO) (.pgen 0b0110#4) = some 0b1100110#7 := by decide
theorem test_enc : after (·.encCodeO) (.enc 0b1011#4) = some 0b0110011#7 := by decide
theorem test_enc_keeps_the_decoder : after (·.decSynO) (.enc 0b1011#4) = some 0b110#3 := by decide
theorem test_syn : after (·.results) (.syn 0b0110111#7) = some [.syndrome 0b101#3] := by decide
theorem test_syn_moves_the_data : after (·.decDataO) (.syn 0b0110000#7) = some 0b1000#4 := by decide
theorem test_loc : after (·.results) (.loc 0b001#3) = some [.flip 0b1000000#7] := by decide
theorem test_loc_guard : locate 0 = 0#7 ∧ locate 8 = 0#7 ∧ locate 255 = 0#7 := by decide
theorem test_cor : after (·.results) (.cor 0b0010011#7 0b0100000#7) = some [.corrected 0b0110011#7] := by decide
theorem test_cor_foreign_mask : after (·.decCorO) (.cor 0b0010011#7 0b1111111#7) = some 0b0110011#7 := by decide
theorem test_ext : after (·.results) (.ext 0b0010111#7) = some [.info 0b1111#4] := by decide
theorem test_ext_drops_parity : after (·.results) (.ext 0b1101000#7) = some [.info 0b0000#4] := by decide
theorem test_dec : after (·.results) (.dec 0b0110111#7) = some [.info 0b1011#4] := by decide
theorem test_dec_miscorrects : after (·.decCorO) (.dec 0b0110000#7) = some 0b1110000#7 := by decide

/-! ### The harness (V-RATE, R73) and the text (R44) -/

theorem test_class_6 : (weightClass 6).map BitVec.toNat = [63, 95, 111, 119, 123, 125, 126] := by decide
theorem test_rate_7 : rate Config.wRef 7 = ⟨0, 1, 0⟩ := by decide
/-- P7 for class 1: the seven decodes of the machine give the reference word back. -/
theorem test_rate_on_machine : (rateOn Config.wRef (encodeWord Config.wRef) (weightClass 1) State.reset).map Prod.fst =
    some ⟨7, 7, 1⟩ := by decide
/-- P7 for class 7: the one word of the class is decoded to another word, and is what the machine read. -/
theorem test_rate_on_machine_7 :
    (rateOn Config.wRef (encodeWord Config.wRef) (weightClass 7) State.reset).map (fun r => (r.1.nk, r.2.results)) =
      some (0, [.info 0b0100#4]) := by decide
theorem test_text_cor : lineText (.cor 0b0110111#7 0b0000100#7) (.corrected 0b0110011#7) =
    "COR 0110111, 0000100 -> 0110011" := by decide
theorem test_text_pgen : lineText (.pgen 0b1011#4) (.parity false true false) = "PGEN 1011 -> p1=0 p2=1 p4=0" := by
  decide
theorem test_text_tobits : lineText (.tobits 11 4) (.bits [true, false, true, true]) = "TOBITS 11, 4 -> 1,0,1,1" := by
  decide

/-! ### Programs (95_test_vectors.md part 3) -/

/-- P3: a double error is silently miscorrected. -/
theorem test_program_p3 : (runProgram State.reset [
    .give (.int 0b1011), .eval .enc [.name 0], .inj (.name 1) (.lit (.int 0b0000011)), .eval .syn [.name 2],
    .eval .loc [.name 3], .eval .cor [.name 2, .name 4], .eval .ext [.name 5]]).map ProgState.env =
    .ok [.int 0b1011, .int 0b0110011, .int 0b0110000, .int 0b001, .int 0b1000000, .int 0b1110000, .int 0b1000] := by
  rfl

/-- P6: both paths at once. -/
theorem test_program_p6 : (runProgram State.reset [
    .eval .pgen [.lit (.int 0b0001)], .eval .enc [.lit (.int 0b0001)], .eval .dec [.lit (.int 0b0011011)]]).map
      (fun p => Port.enc_code_o :: [.dec_syn_o, .dec_flip_o, .dec_cor_o, .dec_data_o] |>.map p.machine.port) =
    .ok [0b1101001, 0b110, 0b0000010, 0b0011001, 0b1001] := by
  rfl

/-- P7, its first lines: the codeword once, the mapping, and class 1. -/
theorem test_program_p7 : (runProgram State.reset [
    .give (.int 0b1011), .eval .enc [.name 0], .classify, .rate (.name 0) (.name 1) (.name 2) 1]).map
      (fun p => p.env.getLast?) = .ok (some (.rate ⟨7, 7, 1⟩)) := by rfl
/-- There is no class 0 (R73), so it is not evaluated. -/
theorem test_program_no_class : runProgram State.reset [
    .give (.int 0b1011), .eval .enc [.name 0], .classify, .rate (.name 0) (.name 1) (.name 2) 0] =
    .error .emptyClass := by rfl
theorem test_program_unbound_name :
    runProgram State.reset [.eval .enc [.name 0]] = .error .unboundName := by rfl
theorem test_program_operands :
    runProgram State.reset [.eval .cor [.lit (.int 1)]] = .error .badOperands := by rfl

/-! ### Witnesses: hypotheses of the statements are met together -/

theorem witness_step_line : (testState 1#4 2#7 [⟨.enc, 4, 11⟩, ⟨.loc, 3, 7⟩]).pending = ⟨.enc, 4, 11⟩ :: [⟨.loc, 3, 7⟩] ∧
    step (testState 1#4 2#7 [⟨.enc, 4, 11⟩, ⟨.loc, 3, 7⟩]) = exec (.enc 11#4) (testState 1#4 2#7 [⟨.loc, 3, 7⟩]) :=
  ⟨rfl, rfl⟩

theorem witness_step_idle : State.reset.pending = [] ∧ step State.reset = .next State.reset := ⟨rfl, rfl⟩

/-- Each of the three clauses of the hypothesis, the last at the top of its range, for one- and two-operand formats. -/
theorem witness_encode_of_decode :
    ((⟨.tobits, 4, 27⟩ : Line).op = .tobits) ∧
    ((⟨.frombits, 7, 127⟩ : Line).op = .frombits ∧ (127 : Nat) < 2 ^ 7) ∧
    ((⟨.cor, 14, 16383⟩ : Line).op ≠ .tobits ∧ Op.operandBits .cor = 14 ∧ (16383 : Nat) < 2 ^ Op.operandBits .cor) ∧
    (Op.operandBits .loc = 3 ∧ (7 : Nat) < 2 ^ Op.operandBits .loc) := by decide

theorem witness_wide_lines :
    (⟨.loc, 9, 300⟩ : Line) ∈ [Line.mk .pgen 9 300, ⟨.enc, 9, 300⟩, ⟨.syn, 9, 300⟩, ⟨.loc, 9, 300⟩, corLine 300 300,
      ⟨.cor, 9, 300⟩, ⟨.ext, 9, 300⟩, ⟨.dec, 9, 300⟩] := by decide

/-- Both ends of every range of places and positions. -/
theorem witness_bit_places : ((0 : Nat) < 7 ∧ (6 : Nat) < 7) ∧ ((1 : Nat) ≤ 1 ∧ (1 : Nat) ≤ 7 ∧ (7 : Nat) ≤ 7) ∧
    toBits 64 7 = [true, false, false, false, false, false, false] ∧ position 64#7 1 = true ∧ position 1#7 7 = true ∧
    infoBit 8#4 0 = true ∧ infoBit 1#4 3 = true := by decide

theorem witness_tobits_clauses : (0 : Nat) < 4 ∧ (3 : Nat) < 4 ∧ toBits 0 4 = List.replicate 4 false ∧
    toBits (2 ^ 4 - 1) 4 = List.replicate 4 true ∧ toBits 9 0 = [] := by decide

theorem witness_frombits_clauses : fromBits [] = 0 ∧
    fromBits (List.replicate 7 true) = 2 ^ 7 - 1 ∧ [true, false][0]? = some ((fromBits [true, false]).testBit 1) := by decide

theorem witness_inverse : (3 ∈ [3, 4, 7] ∧ 7 < 2 ^ 3) ∧ (7 ∈ [3, 4, 7] ∧ 127 < 2 ^ 7) ∧ (4 ∈ [3, 4, 7] ∧ 15 < 2 ^ 4) := by
  decide

theorem witness_wide_information : encodeWord (trunc 4 27) = 0b0110011#7 ∧ encodeWord (trunc 4 251) = 0b0110011#7 := by
  decide

theorem witness_different_words : (0b0000#4 : Info) ≠ 0b0111#4 ∧
    3 ≤ popcount (encodeWord 0b0000#4 ^^^ encodeWord 0b1000#4) ∧ encodeWord 0b1000#4 ≠ 0#7 := by decide

theorem witness_table_row : ((0b1110#4, false, false, false, 0b0010110#7) : Info × Bit × Bit × Bit × Code).1 = 14#4 ∧
    encodeWord 14#4 = 0b0010110#7 := by decide

theorem witness_positions : (syndrome (unit7 1)).toNat = 1 ∧ (syndrome (unit7 7)).toNat = 7 ∧ unit7 1 = 64#7 ∧ unit7 7 = 1#7 := by
  decide

/-- An error of weight 1 (at both ends), one that is a codeword, and one of weight 2 that is none. -/
theorem witness_errors : unit7 1 = 0b1000000#7 ∧ unit7 7 = 0b0000001#7 ∧ 0b1110000#7 = encodeWord 0b1000#4 ∧
    2 ≤ popcount 0b0000011#7 ∧ ¬(∃ d : Info, 0b0000011#7 = encodeWord d) := by decide

theorem witness_loc_clauses : locate 0 = 0#7 ∧ (0b001#3 : Synd) ≠ 0#3 ∧ locate 1 = 0b1000000#7 ∧ locate 7 = 0b0000001#7 := by
  decide

/-- Both clauses of the guard, at 0 and just above 7. -/
theorem witness_guard : ((0 : Nat) = 0 ∨ 7 < 0) ∧ ((8 : Nat) = 0 ∨ 7 < 8) ∧ locate 0 = 0b0000000#7 ∧ locate 8 = 0b0000000#7 ∧
    syndrome 0b0110111#7 ≠ 0#3 := by decide

/-- COR with the block's own mask, and with the zero mask. -/
theorem witness_cor_masks : flipMask 0b0110111#7 = 0b0000100#7 ∧ correctedWord 0b0110111#7 = 0b0110111#7 ^^^ 0b0000100#7 ∧
    flipMask 0b0110011#7 = 0b0000000#7 := by decide

theorem witness_same_data_positions : (∀ p ∈ Config.dataPos, position 0b1101000#7 p = position 0b0000000#7 p) ∧
    (0b1101000#7 : Code) ≠ 0b0000000#7 := by decide

/-- The chain of evaluations of R45 answers as its hypotheses ask. -/
theorem witness_composite : ∃ t1 t2 t3 t4 t : State,
    exec (.syn 55#7) State.reset = .next t1 ∧ t1.results.head? = some (.syndrome 5#3) ∧
    exec (.loc 5#3) t1 = .next t2 ∧ t2.results.head? = some (.flip 4#7) ∧
    exec (.cor 55#7 4#7) t2 = .next t3 ∧ t3.results.head? = some (.corrected 51#7) ∧
    exec (.ext 51#7) t3 = .next t4 ∧ exec (.dec 55#7) State.reset = .next t :=
  ⟨_, _, _, _, _, rfl, by decide, rfl, by decide, rfl, by decide, rfl, rfl⟩

/-- A single error at position 5, and at both ends. -/
theorem witness_single_error : popcount 0b0000100#7 = 1 ∧ decodeWord (encodeWord 11#4 ^^^ 0b0000100#7) = 11#4 ∧
    popcount 0b1000000#7 = 1 ∧ decodeWord (encodeWord 11#4 ^^^ 0b1000000#7) = 11#4 ∧
    popcount 0b0000001#7 = 1 ∧ decodeWord (encodeWord 11#4 ^^^ 0b0000001#7) = 11#4 := by decide

/-- Both sides of the extent: weights 0 and 1, where the word comes back, and 2 and 7, where it does not. -/
theorem witness_extent : popcount 0b0000000#7 ≤ 1 ∧ decodeWord (inject (encodeWord 11#4) 0b0000000#7) = 11#4 ∧
    popcount 0b0000001#7 ≤ 1 ∧ decodeWord (inject (encodeWord 11#4) 0b0000001#7) = 11#4 ∧
    2 ≤ popcount 0b0000011#7 ∧ correctedWord (inject (encodeWord 11#4) 0b0000011#7) = encodeWord 0b1000#4 ∧
    2 ≤ popcount 0b1111111#7 ∧ decodeWord (inject (encodeWord 11#4) 0b1111111#7) = 0b0100#4 := by decide

theorem witness_double_error : 2 ≤ popcount 0b0000011#7 ∧ decodeWord (inject (encodeWord 11#4) 0b0000011#7) = 0b1000#4 := by
  decide

/-- A received word for each clause of R70. -/
theorem witness_parity_flip : syndrome 0b0110011#7 = 0b000#3 ∧ syndrome 0b1110011#7 = 0b001#3 ∧
    syndrome 0b0010011#7 = 0b010#3 ∧ syndrome 0b0111011#7 = 0b100#3 ∧ syndrome 0b0100011#7 = 0b011#3 ∧
    syndrome 0b0110111#7 = 0b101#3 ∧ syndrome 0b0110001#7 = 0b110#3 ∧ syndrome 0b0110010#7 = 0b111#3 := by decide

/-- Evaluations of each of the three groups of R32, and two pairs of states that agree on one input only. -/
theorem witness_paths : (∃ t, exec (.enc 9#4) (testState 1#4 2#7 []) = .next t) ∧
    (∃ t, exec (.cor 9#7 1#7) (testState 1#4 2#7 []) = .next t) ∧ (∃ t, exec (.loc 3#3) (testState 1#4 2#7 []) = .next t) ∧
    Port.onEncoderPath .dec_syn_o = false ∧ Port.onEncoderPath .enc_code_o = true :=
  ⟨⟨_, rfl⟩, ⟨_, rfl⟩, ⟨_, rfl⟩, rfl, rfl⟩

theorem witness_same_input : (testState 1#4 2#7 []).encDataI = (testState 1#4 99#7 []).encDataI ∧
    (testState 5#4 2#7 []).decRxI = (testState 1#4 2#7 []).decRxI ∧
    (testState 1#4 2#7 []).inputs = (testState 1#4 2#7 [⟨.enc, 4, 11⟩]).inputs := by decide

/-- A state that meets the invariant, with a codeword and a flip mask already read, and its step. -/
theorem witness_invariant_step :
    State.Inv { testState 1#4 2#7 [⟨.syn, 7, 99⟩] with results := [.code 51#7, .flip 4#7] } ∧
    ∃ t, step { testState 1#4 2#7 [⟨.syn, 7, 99⟩] with results := [.code 51#7, .flip 4#7] } = .next t := ⟨by decide, _, rfl⟩

/-- The invariant shuts states out: a codeword that is none, and a flip mask of two bits. -/
theorem witness_invariant_excludes : ¬State.Inv { State.reset with results := [.code 52#7] } ∧
    ¬State.Inv { State.reset with results := [.flip 5#7] } := by decide

/-- Both ends of a port's wires and values. -/
theorem witness_port_width : (testState 15#4 127#7 []).port .enc_data_i = 15 ∧ (testState 15#4 127#7 []).port .dec_rx_i = 127 ∧
    (testState 15#4 64#7 []).port .dec_flip_o = 64 ∧ (testState 15#4 1#7 []).port .dec_syn_o = 7 ∧
    0 < (Port.format .enc_p1_o).width ∧ 6 < (Port.format .enc_code_o).width := by decide

/-- LOC and EXT on the block's own internal words, and COR with the block's own mask, in a state that has them. -/
theorem witness_own_words : (testState 1#4 55#7 []).decSynO = 5#3 ∧
    (testState 1#4 55#7 []).decCorO = 51#7 ∧ (testState 1#4 55#7 []).decFlipO = 4#7 := by decide

/-- The consumer's comparison answers both ways; an error that is a codeword goes unseen. -/
theorem witness_consumer : consumerSeesError (testState 1#4 55#7 []) = true ∧
    consumerSeesError (testState 1#4 51#7 []) = false ∧ (76#7 : Code) = inject (encodeWord 11#4) (encodeWord 15#4) ∧
    consumerSeesError (testState 1#4 76#7 []) = false := by decide

theorem witness_perm : [(⟨.enc, 4, 1⟩ : Line), ⟨.dec, 7, 2⟩].Perm [⟨.dec, 7, 2⟩, ⟨.enc, 4, 1⟩] := by decide

theorem witness_class : 0b0000001#7 ∈ weightClass 1 ∧ 0b1111111#7 ∈ weightClass 7 ∧ (0b0000001#7 : Code) ≠ 0#7 := by decide

/-- Both ends of the range of classes: class 1 and class 7. -/
theorem witness_rate : (rate 0#4 1).nk = 7 ∧ (rate 0#4 7).nk = 0 := by decide

theorem witness_injection : position (inject 0b0110011#7 0b1000000#7) 1 = true ∧
    position (inject 0b0110011#7 0b0000001#7) 7 = false := by decide

end Sys2Proof.Tests
end

/-! The ports of a state (10_state.md R13, R18, R19): their wires are settled in every state, and the exact values each
can carry. -/

namespace Sys2Proof.Machine

/-! ### Wires of the assembled words -/

theorem trunc_checks_wires : ∀ s1 s2 s3 : Bit,
    (trunc 3 ((s3.toNat <<< 2) ||| (s2.toNat <<< 1) ||| s1.toNat)).getLsbD 0 = s1 ∧
    (trunc 3 ((s3.toNat <<< 2) ||| (s2.toNat <<< 1) ||| s1.toNat)).getLsbD 1 = s2 ∧
    (trunc 3 ((s3.toNat <<< 2) ||| (s2.toNat <<< 1) ||| s1.toNat)).getLsbD 2 = s3 := by decide

/-- Each wire of the syndrome is one of the three checks (42_syndrome.md R56). -/
theorem syndrome_wires (r : Code) : (syndrome r).getLsbD 0 = check1 r ∧
    (syndrome r).getLsbD 1 = check2 r ∧ (syndrome r).getLsbD 2 = check3 r :=
  trunc_checks_wires _ _ _

theorem infoOfBits_wires : ∀ a b c d : Bit,
    (infoOfBits [a, b, c, d]).getLsbD 3 = a ∧ (infoOfBits [a, b, c, d]).getLsbD 2 = b ∧
    (infoOfBits [a, b, c, d]).getLsbD 1 = c ∧ (infoOfBits [a, b, c, d]).getLsbD 0 = d := by decide

/-- Each wire of the extracted word is a data wire of the seven-bit word (43_locator_corrector.md R64). -/
theorem extract_wires (c : Code) : (extract c).getLsbD 3 = c.getLsbD 4 ∧ (extract c).getLsbD 2 = c.getLsbD 2 ∧
    (extract c).getLsbD 1 = c.getLsbD 1 ∧ (extract c).getLsbD 0 = c.getLsbD 0 :=
  infoOfBits_wires _ _ _ _

/-- For a 3-bit syndrome the guard never fails: the flip is the position the syndrome names (43_locator_corrector.md
R61, R62). -/
theorem locate_syndrome (y : Synd) : locate y.toNat = if y = 0#3 then 0#7 else unit7 y.toNat := by
  split
  case isTrue h => rw [h]; exact locate_zero
  case isFalse h =>
    have hne : y.toNat ≠ 0 := fun h0 => h (BitVec.eq_of_toNat_eq h0)
    exact locate_inside _ (by omega) (by omega)

/-! ### Every state is settled -/

theorem State.encoderSettled (s : State) : s.EncoderSettled :=
  ⟨rfl, rfl, rfl, encodeWord_wire6 _, encodeWord_wire5 _, encodeWord_wire4 _, encodeWord_wire3 _, encodeWord_wire2 _,
    encodeWord_wire1 _, encodeWord_wire0 _⟩

theorem State.decoderSettled (s : State) : s.DecoderSettled := by
  obtain ⟨hs1, hs2, hs3⟩ := syndrome_wires s.decRxI
  exact ⟨hs1, hs2, hs3, locate_syndrome _, rfl, extract_wires _⟩

theorem State.settled (s : State) : s.Settled := ⟨s.encoderSettled, s.decoderSettled⟩

/-- A port of the encoder path is a function of `enc_data_i` alone (10_state.md R13, R20). -/
theorem port_eq_of_encDataI_eq {s t : State} (h : s.encDataI = t.encDataI) (p : Port)
    (hp : p.onEncoderPath = true) : s.port p = t.port p := by
  have hs : s.port p = (driveEnc s.encDataI t).port p := by
    cases p
    case dec_rx_i | dec_syn_o | dec_flip_o | dec_cor_o | dec_data_o => cases hp
    all_goals rfl
  rw [hs, h]; rfl

/-- A port of the decoder path is a function of `dec_rx_i` alone (10_state.md R13, R20). -/
theorem port_eq_of_decRxI_eq {s t : State} (h : s.decRxI = t.decRxI) (p : Port)
    (hp : p.onEncoderPath = false) : s.port p = t.port p := by
  have hs : s.port p = (driveDec s.decRxI t).port p := by
    cases p
    case enc_data_i | enc_p1_o | enc_p2_o | enc_p4_o | enc_code_o => cases hp
    all_goals rfl
  rw [hs, h]; rfl

theorem port_eq_of_inputs_eq {s t : State} (h : s.inputs = t.inputs) (p : Port) : s.port p = t.port p := by
  cases hp : p.onEncoderPath
  case true => exact port_eq_of_encDataI_eq (congrArg Inputs.encDataI h) p hp
  case false => exact port_eq_of_decRxI_eq (congrArg Inputs.decRxI h) p hp

/-- Settles O55: the outputs are computed from the inputs, so their wires are settled in every state. -/
theorem everyStateIsSettled : Obligations.EveryStateIsSettled :=
  ⟨State.settled, fun _ _ h => port_eq_of_inputs_eq h⟩

/-! ### The block's words: code, flip mask, and back -/

/-- Decoding a codeword gives its information word (43_locator_corrector.md R66). -/
theorem decodeWord_encodeWord : ∀ d : Info, decodeWord (encodeWord d) = d := by decide

/-- The corrected word is the codeword of the decoded word, whatever was received (43_locator_corrector.md R63). -/
theorem encodeWord_decodeWord : ∀ r : Code, encodeWord (decodeWord r) = correctedWord r := by decide

/-- A codeword is left as it is (43_locator_corrector.md R66). -/
theorem correctedWord_encodeWord (d : Info) : correctedWord (encodeWord d) = encodeWord d := by
  rw [← encodeWord_decodeWord, decodeWord_encodeWord]

/-- The flip mask of a syndrome has that syndrome (42_syndrome.md R59). -/
theorem syndrome_locate : ∀ y : Synd, syndrome (locate y.toNat) = y := by decide

theorem flipMask_locate (y : Synd) : flipMask (locate y.toNat) = locate y.toNat := by
  rw [flipMask, syndrome_locate]

/-- The sixteen codewords as integers (41_encoder.md R53). -/
def codewordValues : List Nat := [0, 15, 22, 25, 37, 42, 51, 60, 67, 76, 85, 90, 102, 105, 112, 127]

theorem encodeWord_mem_codewordValues : ∀ d : Info, (encodeWord d).toNat ∈ codewordValues := by decide

theorem exists_encodeWord_of_mem : ∀ n ∈ codewordValues, ∃ d : Info, (encodeWord d).toNat = n := by decide

/-- No flip, and the seven one-hot words, as integers (43_locator_corrector.md R61). -/
def flipValues : List Nat := [0, 1, 2, 4, 8, 16, 32, 64]

theorem locate_mem_flipValues : ∀ y : Synd, (locate y.toNat).toNat ∈ flipValues := by decide

theorem exists_locate_of_mem : ∀ n ∈ flipValues, ∃ y : Synd, (locate y.toNat).toNat = n := by decide

/-! ### The values a port can carry -/

theorem port_lt (s : State) (p : Port) : s.port p < 2 ^ p.format.width := by
  cases p
  case enc_p1_o | enc_p2_o | enc_p4_o => exact Bool.toNat_lt _
  all_goals exact BitVec.isLt _

/-- With both inputs zero every port is zero (10_state.md R21). -/
theorem port_reset (p : Port) : State.reset.port p = 0 := by
  cases p <;> rfl

/-- The last wire of an information word enters all three parities (41_encoder.md R50). -/
theorem parity_trunc : ∀ n < 2, (parity1 (trunc 4 n)).toNat = n ∧ (parity2 (trunc 4 n)).toNat = n ∧
    (parity4 (trunc 4 n)).toNat = n := by decide

/-- The ports that carry every value of their width; the other three carry a codeword or a flip mask. -/
def fullPorts : List Port :=
  [.enc_data_i, .dec_rx_i, .enc_p1_o, .enc_p2_o, .enc_p4_o, .dec_syn_o, .dec_data_o]

theorem exists_port_eq_of_full (p : Port) (hp : p ∈ fullPorts) (n : Nat) (hn : n < 2 ^ p.format.width) :
    ∃ s : State, s.port p = n := by
  cases p
  case enc_data_i => exact ⟨driveEnc (trunc 4 n) .reset, Nat.mod_eq_of_lt hn⟩
  case dec_rx_i => exact ⟨driveDec (trunc 7 n) .reset, Nat.mod_eq_of_lt hn⟩
  case enc_p1_o => exact ⟨driveEnc (trunc 4 n) .reset, (parity_trunc n hn).1⟩
  case enc_p2_o => exact ⟨driveEnc (trunc 4 n) .reset, (parity_trunc n hn).2.1⟩
  case enc_p4_o => exact ⟨driveEnc (trunc 4 n) .reset, (parity_trunc n hn).2.2⟩
  case dec_syn_o =>
    refine ⟨driveDec (locate (trunc 3 n).toNat) .reset, ?_⟩
    exact (congrArg BitVec.toNat (syndrome_locate (trunc 3 n))).trans (Nat.mod_eq_of_lt hn)
  case dec_data_o =>
    refine ⟨driveDec (encodeWord (trunc 4 n)) .reset, ?_⟩
    exact (congrArg BitVec.toNat (decodeWord_encodeWord (trunc 4 n))).trans (Nat.mod_eq_of_lt hn)
  case enc_code_o | dec_flip_o | dec_cor_o => exact absurd hp (by decide)

theorem exists_port_enc_code_o_iff (n : Nat) : (∃ s : State, s.port .enc_code_o = n) ↔ n ∈ codewordValues := by
  constructor
  · rintro ⟨s, rfl⟩
    exact encodeWord_mem_codewordValues s.encDataI
  · intro hn
    obtain ⟨d, hd⟩ := exists_encodeWord_of_mem n hn
    exact ⟨driveEnc d .reset, hd⟩

theorem exists_port_dec_flip_o_iff (n : Nat) : (∃ s : State, s.port .dec_flip_o = n) ↔ n ∈ flipValues := by
  constructor
  · rintro ⟨s, rfl⟩
    exact locate_mem_flipValues (syndrome s.decRxI)
  · intro hn
    obtain ⟨y, hy⟩ := exists_locate_of_mem n hn
    exact ⟨driveDec (locate y.toNat) .reset, (congrArg BitVec.toNat (flipMask_locate y)).trans hy⟩

theorem exists_port_dec_cor_o_iff (n : Nat) : (∃ s : State, s.port .dec_cor_o = n) ↔ n ∈ codewordValues := by
  constructor
  · rintro ⟨s, rfl⟩
    have hc : s.port .dec_cor_o = (encodeWord s.decDataO).toNat :=
      congrArg BitVec.toNat (encodeWord_decodeWord s.decRxI).symm
    rw [hc]
    exact encodeWord_mem_codewordValues _
  · intro hn
    obtain ⟨d, hd⟩ := exists_encodeWord_of_mem n hn
    exact ⟨driveDec (encodeWord d) .reset, (congrArg BitVec.toNat (correctedWord_encodeWord d)).trans hd⟩

/-! ### Every wire takes both values -/

theorem exists_wire_of_value {p : Port} {n i : Nat} (h : ∃ s : State, s.port p = n) (hi : n.testBit i = true) :
    ∃ s : State, (s.port p).testBit i = true := by
  obtain ⟨s, rfl⟩ := h
  exact ⟨s, hi⟩

theorem two_pow_mem_flipValues : ∀ i < 7, 2 ^ i ∈ flipValues := by decide

theorem testBit_allOnes : ∀ i < 7, Nat.testBit 127 i = true := by decide

/-- A full port and the flip mask carry the word with that wire alone, a code port the codeword of all ones. -/
theorem exists_wire_one (p : Port) (i : Nat) (hi : i < p.format.width) :
    ∃ s : State, (s.port p).testBit i = true := by
  cases p
  case enc_code_o =>
    exact exists_wire_of_value ((exists_port_enc_code_o_iff 127).2 (by decide)) (testBit_allOnes i hi)
  case dec_cor_o =>
    exact exists_wire_of_value ((exists_port_dec_cor_o_iff 127).2 (by decide)) (testBit_allOnes i hi)
  case dec_flip_o =>
    exact exists_wire_of_value ((exists_port_dec_flip_o_iff _).2 (two_pow_mem_flipValues i hi)) Nat.testBit_two_pow_self
  all_goals
    exact exists_wire_of_value (exists_port_eq_of_full _ (by decide) _ (Nat.pow_lt_pow_right Nat.one_lt_two hi))
      Nat.testBit_two_pow_self

theorem exists_wire_zero (p : Port) (i : Nat) : ∃ s : State, (s.port p).testBit i = false :=
  ⟨.reset, by rw [port_reset, Nat.zero_testBit]⟩

/-- Settles O36: the bound and the table port by port, and the exact set of values of each port, from which both values
of each wire follow. -/
theorem portValuesFitTheirWidths : Obligations.PortValuesFitTheirWidths :=
  ⟨port_lt, by decide, fun p i hi => ⟨exists_wire_one p i hi, exists_wire_zero p i⟩, exists_port_eq_of_full,
    exists_port_enc_code_o_iff, exists_port_dec_flip_o_iff, exists_port_dec_cor_o_iff⟩

end Sys2Proof.Machine

/-! Words as the host presents them (20_memory.md R25, R27): the order of their bits, and the cut to the operand's width. -/

namespace Sys2Proof.Machine

/-! ### The order of the bits -/

/-- Element `j` of a listed word is its wire `w[L-1-j]` (20_memory.md R25). -/
theorem toBits_toNat_getElem? {L : Nat} (w : BitVec L) (j : Nat) (h : j < L) :
    (toBits w.toNat L)[j]? = some (w.getLsbD (L - 1 - j)) :=
  toBits_getElem? w.toNat L j h

/-- Position `p` of a listed word, element `p - 1`, is its wire `w[L-p]` (20_memory.md R25). -/
theorem toBits_toNat_getElem?_position {L : Nat} (w : BitVec L) (p : Nat) (h1 : 1 ≤ p) (hL : p ≤ L) :
    (toBits w.toNat L)[p - 1]? = some (w.getLsbD (L - p)) := by
  have hwire : L - 1 - (p - 1) = L - p := by omega
  rw [toBits_toNat_getElem? w (p - 1) (by omega), hwire]

/-- Settles O7: the listing and the document's bit names number the wires from the highest down; the encoder's example
word is evaluated. -/
theorem bitOrderIsMostSignificantFirst : Obligations.BitOrderIsMostSignificantFirst :=
  ⟨fun _ => toBits_toNat_getElem?, fun _ => toBits_toNat_getElem?_position,
    fun c p h1 _ => ⟨rfl, (position_eq_codeBit c p h1).symm⟩, fun _ _ _ => rfl, by decide, by decide⟩

/-! ### The cut to the operand's width -/

/-- COR's two words stand side by side in the line's word, and each is cut out of it unchanged (30_encoding.md R40). -/
theorem decode_encode_cor (r f : Code) : decode (encode (.cor r f)) = .cor r f := by
  have hword : (r.toNat <<< 7) ||| f.toNat = 128 * r.toNat + f.toNat := by
    rw [← Nat.shiftLeft_add_eq_or_of_lt f.isLt, Nat.shiftLeft_eq, mul_comm]
  have hhigh : trunc 7 ((128 * r.toNat + f.toNat) >>> 7) = r := by
    apply BitVec.eq_of_toNat_eq
    rw [trunc_toNat, Nat.shiftRight_eq_div_pow]
    omega
  have hlow : trunc 7 (128 * r.toNat + f.toNat) = f := by
    apply BitVec.eq_of_toNat_eq
    rw [trunc_toNat]
    omega
  simp only [encode, decode, hword, hhigh, hlow]

/-- Every evaluation completes, with one result more and the lines that wait untouched (60_exceptions.md R83). -/
theorem exec_completes (i : Instr) (s : State) : ∃ (t : State) (r : Result),
    exec i s = .next t ∧ t.results = r :: s.results ∧ t.pending = s.pending := by
  cases i <;> exact ⟨_, _, rfl, rfl, rfl⟩

/-- Settles O6: a step evaluates the decoded line, and decoding cuts each operand; COR's two integers are cut before they
are put side by side, and come back out of the one word. -/
theorem wideOperandsAreTruncated : Obligations.WideOperandsAreTruncated := by
  refine ⟨trunc_toNat, fun s n v w => ⟨rfl, rfl, rfl, rfl, ?_, rfl, rfl, rfl, fun l _ => exec_completes (decode l) s⟩⟩
  rw [step_present, corLine, decode_encode_cor]

end Sys2Proof.Machine

/-! TOBITS's function (40_conversion.md R46): each bit as the document's shift and mask, the cut to the length, and the
corner words. -/

namespace Sys2Proof.Machine

/-- The document's `(v >> i) & 1` is the bit `i` of `v` (40_conversion.md R46). -/
theorem shiftRight_and_one_beq_one (v i : Nat) : (v >>> i &&& 1 == 1) = v.testBit i := by
  rw [Nat.testBit_eq_decide_div_mod_eq, Nat.shiftRight_eq_div_pow, Nat.and_one_is_mod]
  rfl

/-- Bits of `v` from `L` up do not appear (40_conversion.md R46). -/
theorem toBits_mod_two_pow (v L : Nat) : toBits (v % 2 ^ L) L = toBits v L := by
  refine List.map_congr_left fun j hj => ?_
  have hin : L - 1 - j < L := by have := List.mem_range.1 hj; omega
  rw [Nat.testBit_mod_two_pow, decide_eq_true hin, Bool.true_and]

/-- A word whose low `L` wires all carry `b` is listed as `L` times `b`. -/
theorem toBits_eq_replicate {v L : Nat} {b : Bit} (h : ∀ i < L, v.testBit i = b) :
    toBits v L = List.replicate L b := by
  refine List.eq_replicate_iff.2 ⟨toBits_length v L, fun x hx => ?_⟩
  obtain ⟨j, hj, rfl⟩ := List.mem_map.1 hx
  exact h _ (by have := List.mem_range.1 hj; omega)

theorem toBits_zero_left (L : Nat) : toBits 0 L = List.replicate L false :=
  toBits_eq_replicate fun i _ => Nat.zero_testBit i

theorem toBits_two_pow_sub_one (L : Nat) : toBits (2 ^ L - 1) L = List.replicate L true :=
  toBits_eq_replicate fun i hi => (Nat.testBit_two_pow_sub_one L i).trans (decide_eq_true hi)

/-- Length 0 gives the empty sequence (92_eei_decisions.md D19). -/
@[simp] theorem toBits_zero_right (v : Nat) : toBits v 0 = [] := rfl

/-- Settles O8: the sequence is `toBits v L`, in every state; its bits, the cut to `L` and the corner words are the laws of
`toBits`, and the document's three words are evaluated. -/
theorem tobitsGivesTheBits : Obligations.TobitsGivesTheBits := by
  refine ⟨fun s v L => ⟨toBits v L, exec_tobits s v L, toBits_length v L, ?bits, ?cut, ?zero, ?ones, ?empty⟩,
    by decide, by decide, by decide⟩
  case bits =>
    intro j hj
    rw [toBits_getElem? v L j hj, shiftRight_and_one_beq_one]
  case cut => rw [exec_tobits, exec_tobits, toBits_mod_two_pow]
  case zero => rintro rfl; exact toBits_zero_left L
  case ones => rintro rfl; exact toBits_two_pow_sub_one L
  case empty => rintro rfl; exact toBits_zero_right v

end Sys2Proof.Machine

/-! The encoder (41_encoder.md): the codeword as an integer, what is read of it and of the flip mask, and the step that
keeps the block's outputs settled. -/

namespace Sys2Proof.Machine

/-! ### The codeword as an integer -/

/-- The head of a sequence is its most significant bit (40_conversion.md R47). -/
theorem fromBits_cons (b : Bit) (q : List Bit) : fromBits (b :: q) = 2 ^ q.length * b.toNat + fromBits q := by
  induction q using List.reverseRecOn with
  | nil => simpa using fromBits_concat [] b
  | append_singleton q c ih =>
    rw [← List.cons_append, fromBits_concat, ih, fromBits_concat, List.length_append, List.length_singleton]
    ring

/-- Seven bits fill a seven-bit word: nothing is cut off when they are assembled (30_encoding.md R38). -/
theorem codeOfBits_toNat {q : List Bit} (h : q.length = 7) : (codeOfBits q).toNat = fromBits q := by
  rw [codeOfBits, trunc_toNat, Nat.mod_eq_of_lt (h ▸ fromBits_lt q)]

/-- The codeword's seven weights (41_encoder.md R51). -/
theorem encodeWord_toNat (d : Info) : (encodeWord d).toNat =
    64 * (parity1 d).toNat + 32 * (parity2 d).toNat + 16 * (d.getLsbD 3).toNat + 8 * (parity4 d).toNat +
      4 * (d.getLsbD 2).toNat + 2 * (d.getLsbD 1).toNat + (d.getLsbD 0).toNat := by
  rw [encodeWord, codeOfBits_toNat rfl]
  simp [fromBits_cons, infoBit, ← add_assoc]

/-! ### What an evaluation reads is possible -/

/-- A codeword passes the three checks (41_encoder.md R53). -/
theorem syndrome_encodeWord : ∀ d : Info, syndrome (encodeWord d) = 0#3 := by decide

/-- The locator flips at most one wire (43_locator_corrector.md R61). -/
theorem popcount_locate : ∀ y : Synd, popcount (locate y.toNat) ≤ 1 := by decide

theorem possibleResult_code_encodeWord (d : Info) : possibleResult (.code (encodeWord d)) = true :=
  beq_iff_eq.2 (syndrome_encodeWord d)

theorem possibleResult_flip_locate (y : Synd) : possibleResult (.flip (locate y.toNat)) = true :=
  decide_eq_true (popcount_locate y)

/-- Only ENC reads a codeword and only LOC reads a flip mask; every other result is possible whatever its value. -/
theorem exec_reads_possible (i : Instr) (s : State) : ∃ (t : State) (r : Result),
    exec i s = .next t ∧ t.results = r :: s.results ∧ possibleResult r = true := by
  cases i
  case enc d => exact ⟨_, _, exec_enc s d, rfl, possibleResult_code_encodeWord d⟩
  case loc y => exact ⟨_, _, exec_loc s y, rfl, possibleResult_flip_locate y⟩
  case tobits | frombits | pgen | syn | cor | ext | dec => exact ⟨_, _, rfl, rfl, rfl⟩

theorem exec_keeps_resultsPossible {i : Instr} {s t : State} (hs : s.ResultsPossible) (h : exec i s = .next t) :
    t.ResultsPossible := by
  obtain ⟨u, r, hu, hres, hr⟩ := exec_reads_possible i s
  obtain rfl : u = t := Host.Outcome.next.inj (hu.symm.trans h)
  rw [State.ResultsPossible, hres, List.all_cons, hr, hs, Bool.and_self]

/-! ### Steps -/

/-- All a step can do: nothing when no line waits, or the evaluation of the first line that waits. -/
theorem step_inversion {s t : State} (h : step s = .next t) :
    t = s ∨ ∃ (l : Line) (rest : List Line), s.pending = l :: rest ∧
      exec (decode l) { s with pending := rest } = .next t := by
  cases hp : s.pending with
  | nil => exact .inl (Host.Outcome.next.inj (h.symm.trans (step_nil hp)))
  | cons l rest => exact .inr ⟨l, rest, rfl, (step_cons hp).symm.trans h⟩

theorem step_keeps_resultsPossible {s t : State} (hs : s.ResultsPossible) (h : step s = .next t) :
    t.ResultsPossible := by
  obtain rfl | ⟨l, rest, -, hexec⟩ := step_inversion h
  · exact hs
  · exact exec_keeps_resultsPossible (s := { s with pending := rest }) hs hexec

/-- Settles O42: outputs are settled in every state, and a step adds at most one result, which is a possible one. -/
theorem stepKeepsOutputsSettled : Obligations.StepKeepsOutputsSettled :=
  fun _ t ⟨_, hs⟩ h => ⟨t.settled, step_keeps_resultsPossible hs h⟩

/-! ### ENC and PGEN -/

/-- Settles O12: the word read is `encodeWord d`, in every state; its wires and its weights are the laws of `encodeWord`, and
the three corner words are evaluated. -/
theorem encDrivesTheCodeword : Obligations.EncDrivesTheCodeword := by
  refine ⟨fun s d => ⟨_, parity1 d, parity2 d, parity4 d, encodeWord d, exec_enc s d,
    rfl, rfl, rfl, rfl, rfl, rfl, rfl, rfl,
    encodeWord_wire6 d, encodeWord_wire5 d, encodeWord_wire4 d, encodeWord_wire3 d, encodeWord_wire2 d, encodeWord_wire1 d,
    encodeWord_wire0 d, encodeWord_toNat d, ?zeros, ?ones, ?word1011⟩, fun s n v => step_present s ⟨.enc, n, v⟩⟩
  case zeros | ones | word1011 => rintro rfl; decide

/-- Settles O11: the bits read are the parity functions of `d`, in every state, and the document's three words are
evaluated. -/
theorem pgenDrivesTheParityBits : Obligations.PgenDrivesTheParityBits := by
  refine ⟨fun s d => ⟨_, parity1 d, parity2 d, parity4 d, exec_pgen s d, rfl, rfl, rfl, rfl, rfl, rfl, rfl,
    ?zeros, ?ones, ?word1011⟩, fun s n v => step_present s ⟨.pgen, n, v⟩⟩
  case zeros | ones | word1011 => rintro rfl; decide

/-- Both of the document's wide integers have the low bits `1011` (41_encoder.md R55). -/
theorem trunc_wide_examples {v : Nat} (h : v = 27 ∨ v = 251) : trunc 4 v = 0b1011#4 := by
  obtain rfl | rfl := h <;> rfl

/-- Settles O13: the decoder cuts the word before either evaluation, and the two examples are cut to `1011`. -/
theorem wideInformationWordIsTruncated : Obligations.WideInformationWordIsTruncated := by
  refine fun s n v => ⟨_, _, step_present s ⟨.enc, n, v⟩, exec_enc s _,
    step_present s ⟨.pgen, n, v⟩, exec_pgen s _, ?_⟩
  intro hv
  rw [answer_encCodeO, driveEnc_encCodeO, trunc_wide_examples hv]
  decide

end Sys2Proof.Machine

/-! The syndrome (42_syndrome.md): its three checks assembled as an integer, and SYN. -/

namespace Sys2Proof.Machine

/-- The or of the three shifted checks stays in `[0, 7]` and never carries (42_syndrome.md R56). -/
theorem or_shifted_checks : ∀ s1 s2 s3 : Bit,
    (s3.toNat <<< 2) ||| (s2.toNat <<< 1) ||| s1.toNat = 4 * s3.toNat + 2 * s2.toNat + s1.toNat ∧
    (s3.toNat <<< 2) ||| (s2.toNat <<< 1) ||| s1.toNat < 2 ^ 3 := by decide

/-- Three bits fill the syndrome: nothing of the or is cut off. -/
theorem syndrome_toNat_or (r : Code) :
    (syndrome r).toNat = ((check3 r).toNat <<< 2) ||| ((check2 r).toNat <<< 1) ||| (check1 r).toNat :=
  Nat.mod_eq_of_lt (or_shifted_checks _ _ _).2

theorem syndrome_toNat_sum (r : Code) :
    (syndrome r).toNat = 4 * (check3 r).toNat + 2 * (check2 r).toNat + (check1 r).toNat :=
  (syndrome_toNat_or r).trans (or_shifted_checks _ _ _).1

/-- Settles O18: the word read is `syndrome r`, in every state; its wires and the two ways to assemble it are the laws of
`syndrome`, and the document's words are evaluated. -/
theorem synDrivesTheSyndrome : Obligations.SynDrivesTheSyndrome := by
  refine ⟨fun s r => ?_, fun s n v => step_present s ⟨.syn, n, v⟩, by decide⟩
  obtain ⟨hwire0, hwire1, hwire2⟩ := syndrome_wires r
  refine ⟨_, syndrome r, check1 r, check2 r, check3 r, exec_syn s r, rfl, rfl, rfl, rfl, rfl, hwire2, hwire1, hwire0,
    syndrome_toNat_or r, syndrome_toNat_sum r, ?zeros, ?ones, ?word0110111⟩
  case zeros | ones | word0110111 => rintro rfl; decide

end Sys2Proof.Machine

/-! The locator, the corrector, the extraction and the decoder (43_locator_corrector.md). A codeword adds nothing to a
syndrome, so the flip mask of a received word is the flip mask of its error; from this the correction of single errors
follows, and the silence about all others. -/

namespace Sys2Proof.Machine

/-! ### The word with one wire set -/

theorem unit7_toNat {p : Nat} (h1 : 1 ≤ p) : (unit7 p).toNat = 1 <<< (7 - p) := by
  have hlt : 2 ^ (7 - p) < 2 ^ 7 := Nat.pow_lt_pow_right Nat.one_lt_two (by omega)
  rw [unit7, trunc_toNat, Nat.one_shiftLeft, Nat.mod_eq_of_lt hlt]

theorem unit7_wire {p : Nat} (h1 : 1 ≤ p) : (unit7 p).getLsbD (7 - p) = true := by
  rw [BitVec.getLsbD, unit7_toNat h1, Nat.one_shiftLeft, Nat.testBit_two_pow_self]

theorem popcount_unit7 : ∀ p < 8, 1 ≤ p → popcount (unit7 p) = 1 := by decide

/-! ### LOC -/

/-- A syndrome other than 0 is a position, 1 to 7 (43_locator_corrector.md R62). -/
theorem one_le_toNat_of_ne_zero {y : Synd} (h : y ≠ 0#3) : 1 ≤ y.toNat :=
  Nat.one_le_iff_ne_zero.2 fun h0 => h (BitVec.eq_of_toNat_eq h0)

theorem locate_of_ne_zero {y : Synd} (h : y ≠ 0#3) : locate y.toNat = unit7 y.toNat := by
  rw [locate_syndrome, if_neg h]

/-- R61's table of the complete function. -/
theorem locate_mem_table : ∀ y : Synd, (y, locate y.toNat) ∈ [(0b000#3, 0b0000000#7), (0b001#3, 0b1000000#7),
    (0b010#3, 0b0100000#7), (0b011#3, 0b0010000#7), (0b100#3, 0b0001000#7), (0b101#3, 0b0000100#7),
    (0b110#3, 0b0000010#7), (0b111#3, 0b0000001#7)] := by decide

/-- Settles O23: the mask read is `locate` of the syndrome, in every state; for a syndrome other than 0 it is the word with
the wire of that position set, and the block's own mask is `locate` of the block's own syndrome. -/
theorem locSelectsTheFlip : Obligations.LocSelectsTheFlip := by
  refine ⟨fun s y => ⟨_, locate y.toNat, exec_loc s y, rfl, ?zero, ?position, locate_mem_table y⟩,
    fun s r => ⟨_, _, exec_syn s r, exec_loc _ _, rfl⟩⟩
  case zero => rintro rfl; exact locate_zero
  case position =>
    intro hy
    have h1 := one_le_toNat_of_ne_zero hy
    have hshift : 6 - (y.toNat - 1) = 7 - y.toNat := by omega
    rw [locate_of_ne_zero hy, hshift]
    exact ⟨by omega, unit7_toNat h1, rfl, unit7_wire h1, popcount_unit7 _ y.isLt h1⟩

/-! ### EXT -/

/-- EXT reads the data positions, in order, and no other (43_locator_corrector.md R64). -/
theorem extract_eq_dataPos (c : Code) : extract c = infoOfBits (Config.dataPos.map (position c)) := rfl

theorem extract_congr {c c' : Code} (h : ∀ p ∈ Config.dataPos, position c p = position c' p) : extract c = extract c' := by
  rw [extract_eq_dataPos, extract_eq_dataPos, List.map_congr_left h]

/-- Settles O26: the word read is `extract c`, in every state; it is a function of the data positions alone, and the
block's own word is `extract` of its corrected word. -/
theorem extTakesTheDataPositions : Obligations.ExtTakesTheDataPositions := by
  refine ⟨fun s c => ?_, fun s c c' h => ?_, fun s r => ⟨_, _, exec_dec s r, exec_ext _ _, rfl⟩⟩
  · obtain ⟨hwire3, hwire2, hwire1, hwire0⟩ := extract_wires c
    exact ⟨_, extract c, exec_ext s c, rfl, hwire3, hwire2, hwire1, hwire0, by rintro rfl; decide⟩
  · rw [exec_ext, exec_ext, extract_congr h]

/-! ### DEC -/

/-- Settles O27: each of the four steps reads the block's own word of its unit, which is what DEC leaves on that unit's
port; the document's word is evaluated. -/
theorem decRunsTheFourSteps : Obligations.DecRunsTheFourSteps := by
  refine ⟨fun s r => ⟨syndrome r, flipMask r, correctedWord r, decodeWord r, _, _, _, _, _,
    exec_syn s r, rfl, exec_loc _ _, rfl, exec_cor _ _ _, rfl, exec_ext _ _, rfl, exec_dec s r, rfl, rfl, rfl, rfl, rfl,
    ?word0110111⟩, fun s n v => step_present s ⟨.dec, n, v⟩⟩
  case word0110111 => rintro rfl; decide

/-- DEC of a word whose decoding is known. -/
theorem exec_dec_of_decodeWord {r : Code} {d : Info} (s : State) (h : decodeWord r = d) :
    exec (.dec r) s = .next (answer (.info d) (driveDec r s)) := by
  rw [exec_dec, h]

theorem flipMask_encodeWord (d : Info) : flipMask (encodeWord d) = 0#7 := by
  rw [flipMask, syndrome_encodeWord]; exact locate_zero

/-- Settles O29: a codeword has syndrome 0, so nothing is flipped, and its decoding is its information word. -/
theorem roundTripWithNoError : Obligations.RoundTripWithNoError := fun s d =>
  ⟨_, _, exec_enc s d, exec_dec_of_decodeWord _ (decodeWord_encodeWord d), rfl, decodeWord_encodeWord d,
    syndrome_encodeWord d, flipMask_encodeWord d⟩

/-! ### The syndrome of a codeword with an error -/

theorem check1_xor (a b : Code) : check1 (a ^^^ b) = (check1 a ^^ check1 b) := by
  simp only [check1, codeBit, BitVec.getLsbD_xor, Bool.xor_assoc, Bool.xor_left_comm]

theorem check2_xor (a b : Code) : check2 (a ^^^ b) = (check2 a ^^ check2 b) := by
  simp only [check2, codeBit, BitVec.getLsbD_xor, Bool.xor_assoc, Bool.xor_left_comm]

theorem check3_xor (a b : Code) : check3 (a ^^^ b) = (check3 a ^^ check3 b) := by
  simp only [check3, codeBit, BitVec.getLsbD_xor, Bool.xor_assoc, Bool.xor_left_comm]

/-- Each check is an XOR of wires, so it is linear, and with them the syndrome (42_syndrome.md R57). -/
theorem syndrome_xor (a b : Code) : syndrome (a ^^^ b) = syndrome a ^^^ syndrome b := by
  obtain ⟨ha0, ha1, ha2⟩ := syndrome_wires a
  obtain ⟨hb0, hb1, hb2⟩ := syndrome_wires b
  obtain ⟨hx0, hx1, hx2⟩ := syndrome_wires (a ^^^ b)
  refine BitVec.eq_of_getLsbD_eq fun i hi => ?_
  rw [BitVec.getLsbD_xor]
  interval_cases i
  · rw [hx0, ha0, hb0, check1_xor]
  · rw [hx1, ha1, hb1, check2_xor]
  · rw [hx2, ha2, hb2, check3_xor]

/-- The syndrome of a received word depends on its error alone (42_syndrome.md R60). -/
theorem syndrome_encodeWord_xor (d : Info) (e : Code) : syndrome (encodeWord d ^^^ e) = syndrome e := by
  rw [syndrome_xor, syndrome_encodeWord, BitVec.zero_xor]

theorem flipMask_encodeWord_xor (d : Info) (e : Code) : flipMask (encodeWord d ^^^ e) = flipMask e := by
  rw [flipMask, syndrome_encodeWord_xor, flipMask]

/-! ### Single errors -/

/-- An error of weight at most 1 is its own flip mask: the checks name its position (42_syndrome.md R59). -/
theorem flipMask_of_popcount_le_one : ∀ e : Code, popcount e ≤ 1 → flipMask e = e := by decide

/-- The flip undoes an error of weight at most 1 (43_locator_corrector.md R67). -/
theorem correctedWord_encodeWord_xor (d : Info) {e : Code} (h : popcount e ≤ 1) :
    correctedWord (encodeWord d ^^^ e) = encodeWord d := by
  rw [correctedWord, correct, flipMask_encodeWord_xor, flipMask_of_popcount_le_one e h, BitVec.xor_assoc,
    BitVec.xor_self, BitVec.xor_zero]

/-- A decoded word is told by the corrected word (43_locator_corrector.md R63). -/
theorem decodeWord_eq_of_correctedWord {r : Code} {d : Info} (h : correctedWord r = encodeWord d) : decodeWord r = d := by
  rw [← decodeWord_encodeWord (decodeWord r), encodeWord_decodeWord, h, decodeWord_encodeWord]

theorem syndrome_ne_zero_of_popcount_one {e : Code} (h : popcount e = 1) : syndrome e ≠ 0#3 := by
  intro hs
  have he : 0#7 = e := by
    rw [← flipMask_of_popcount_le_one e h.le, flipMask, hs]
    exact locate_zero.symm
  subst he
  exact absurd h (by decide)

/-- Settles O30: the error's syndrome is its position, whose flip is the error itself; it takes the received word back to
the codeword. -/
theorem singleErrorIsCorrected : Obligations.SingleErrorIsCorrected := by
  intro s d e he
  have hne := syndrome_ne_zero_of_popcount_one he
  have hmask : flipMask e = unit7 (syndrome e).toNat := locate_of_ne_zero hne
  have hcor := correctedWord_encodeWord_xor d he.le
  have hdec := decodeWord_eq_of_correctedWord hcor
  exact ⟨_, _, (syndrome e).toNat, exec_enc s d, exec_dec_of_decodeWord _ hdec, rfl, hdec, one_le_toNat_of_ne_zero hne,
    by omega, (flipMask_of_popcount_le_one e he.le).symm.trans hmask,
    congrArg BitVec.toNat (syndrome_encodeWord_xor d e), (flipMask_encodeWord_xor d e).trans hmask, hcor⟩

/-! ### Every other error -/

/-- Every received word is the codeword of the decoded word with its own flip mask as the error (43_locator_corrector.md
R69). -/
theorem encodeWord_decodeWord_xor_flipMask (r : Code) : encodeWord (decodeWord r) ^^^ flipMask r = r := by
  rw [encodeWord_decodeWord, correctedWord, correct, BitVec.xor_assoc, BitVec.xor_self, BitVec.xor_zero]

theorem popcount_flipMask (r : Code) : popcount (flipMask r) ≤ 1 := popcount_locate (syndrome r)

/-- If the word comes back, the error was its own flip mask, so of weight at most 1 (43_locator_corrector.md R69). -/
theorem decodeWord_ne_of_two_le_popcount {d : Info} {e : Code} (h : 2 ≤ popcount e) :
    decodeWord (encodeWord d ^^^ e) ≠ d := by
  intro hd
  have hback := encodeWord_decodeWord_xor_flipMask (encodeWord d ^^^ e)
  rw [hd] at hback
  have hmask : flipMask (encodeWord d ^^^ e) = e := (BitVec.xor_right_inj _).1 hback
  have hle := popcount_flipMask (encodeWord d ^^^ e)
  rw [hmask] at hle
  omega

/-- Settles O32: the received word is also the codeword of the word decoded from it with its flip mask as the error, so
the two evaluations are one. -/
theorem miscorrectionIsSilent : Obligations.MiscorrectionIsSilent := by
  intro s d e he
  refine ⟨decodeWord (inject (encodeWord d) e), flipMask (inject (encodeWord d) e), _,
    decodeWord_ne_of_two_le_popcount he, popcount_flipMask _, exec_dec s _, ?_, rfl⟩
  rw [inject, encodeWord_decodeWord_xor_flipMask, exec_dec]

end Sys2Proof.Machine

/-! The weight classes (44_analyzer_harness.md R72 to R74): the weight counts the set bits, and the seven classes are the 127
error patterns, sorted by weight. -/

namespace Sys2Proof.Machine

/-! ### WEIGHT -/

theorem length_filter_beq_true (q : List Bit) : (q.filter (· == true)).length = (q.map Bool.toNat).sum := by
  induction q with
  | nil => rfl
  | cons b q ih =>
    cases b
    case false => exact ih.trans (Nat.zero_add _).symm
    case true => exact (congrArg (· + 1) ih).trans (Nat.add_comm _ _)

/-- The weight is the sum of the listed bits (44_analyzer_harness.md R72). -/
theorem weight_eq_sum_toBits (e : Code) : weight e = ((toBits e.toNat 7).map Bool.toNat).sum := by
  simp [weight, popcount, toBits, List.range_succ, BitVec.getLsbD, Nat.add_assoc]

theorem weight_eq_length_filter (e : Code) : weight e = ((toBits e.toNat 7).filter (· == true)).length := by
  rw [weight_eq_sum_toBits, length_filter_beq_true]

/-- Seven bits are listed, so at most seven of them are 1 (44_analyzer_harness.md R72). -/
theorem weight_le_seven (e : Code) : weight e ≤ 7 := by
  rw [weight_eq_length_filter]
  exact (List.length_filter_le _ _).trans_eq (toBits_length _ _)

/-- Settles O50: the weight is the number of bits listed as 1, of seven; the four words are evaluated. -/
theorem weightCountsTheBits : Obligations.WeightCountsTheBits :=
  ⟨fun e => ⟨weight_eq_length_filter e, weight_le_seven e⟩, by decide, by decide, by decide, by decide⟩

theorem one_le_weight : ∀ e : Code, e ≠ 0#7 → 1 ≤ weight e := by decide

/-! ### The error patterns in their order -/

/-- The enumeration from 1 to 127 leaves out the zero word alone (44_analyzer_harness.md R73). -/
theorem mem_errorPatterns (e : Code) : e ∈ errorPatterns ↔ e ≠ 0#7 := by
  constructor
  · rintro he rfl
    obtain ⟨i, hi, h0⟩ := List.mem_map.1 he
    have hval : (i + 1) % 2 ^ 7 = 0 := congrArg BitVec.toNat h0
    have := List.mem_range.1 hi
    omega
  · intro he
    have hpos : e.toNat ≠ 0 := fun h0 => he (BitVec.eq_of_toNat_eq h0)
    refine List.mem_map.2 ⟨e.toNat - 1, List.mem_range.2 (by omega), ?_⟩
    rw [Nat.sub_add_cancel (Nat.one_le_iff_ne_zero.2 hpos), trunc_of_toNat]

theorem errorPatterns_ascending : errorPatterns.Pairwise fun a b => a.toNat < b.toNat := by
  refine List.pairwise_map.2 (List.pairwise_lt_range.imp_of_mem fun {i j} hi hj hij => ?_)
  have := List.mem_range.1 hi
  have := List.mem_range.1 hj
  rw [trunc_toNat, trunc_toNat]
  omega

/-! ### The classes -/

theorem mem_weightClass (k : Nat) (e : Code) : e ∈ weightClass k ↔ e ≠ 0#7 ∧ weight e = k := by
  rw [weightClass, List.mem_filter, mem_errorPatterns, beq_iff_eq]

/-- A class is taken out of the enumeration in order, so it ascends too (44_analyzer_harness.md R73). -/
theorem weightClass_ascending (k : Nat) : (weightClass k).Pairwise fun a b => a.toNat < b.toNat :=
  errorPatterns_ascending.filter _

theorem weightClass_nodup (k : Nat) : (weightClass k).Nodup :=
  (weightClass_ascending k).imp fun h hab => absurd (congrArg BitVec.toNat hab) h.ne

/-- The sizes are the binomial coefficients (44_analyzer_harness.md R74). -/
theorem weightClass_length : ∀ k < 8, 1 ≤ k → (weightClass k).length = Nat.choose 7 k := by decide

/-- The keys of the mapping, as the report visits them (log entry 13). -/
def classKeys : List Nat := [1, 2, 3, 4, 5, 6, 7]

theorem mem_classKeys (k : Nat) : k ∈ classKeys ↔ 1 ≤ k ∧ k ≤ 7 := by
  simp only [classKeys, List.mem_cons, List.not_mem_nil, or_false]
  omega

theorem classify_eq_map : classify = classKeys.map fun k => (k, weightClass k) := rfl

theorem classify_map_length : (classify.map fun m => m.2.length) = classKeys.map (Nat.choose 7) := by
  rw [classify_eq_map, List.map_map]
  refine List.map_congr_left fun k hk => ?_
  obtain ⟨h1, h7⟩ := (mem_classKeys k).1 hk
  exact weightClass_length k (by omega) h1

/-- The coefficients of a row add up to a power of two; the class 0 is missing (44_analyzer_harness.md R74). -/
theorem classify_sum_length : (classify.map fun m => m.2.length).sum = 127 := by
  rw [classify_map_length]
  decide

/-- Settles O51: a class is a filter of the ascending enumeration by weight, and the weight of a word other than 0 is one of
the seven keys. -/
theorem weightClassesPartitionThePatterns : Obligations.WeightClassesPartitionThePatterns := by
  refine ⟨mem_weightClass, weightClass_ascending, fun e he => ?key, fun k h1 h7 => weightClass_length k (by omega) h1,
    classify_sum_length, rfl, ?entries⟩
  case key =>
    exact ⟨weight e, one_le_weight e he, weight_le_seven e, (mem_weightClass _ e).2 ⟨he, rfl⟩,
      fun k' hk' => ((mem_weightClass k' e).1 hk').2.symm⟩
  case entries =>
    intro m hm
    obtain ⟨k, -, rfl⟩ := List.mem_map.1 hm
    rfl

end Sys2Proof.Machine

/-! The correction rates (44_analyzer_harness.md R75, R76): a pattern is repaired exactly when its weight is at most 1, so
class 1 is repaired whole and the other classes not at all. -/

namespace Sys2Proof.Machine

/-- `repaired` compares what DEC leaves on `dec_data_o` with the reference word (44_analyzer_harness.md R75). -/
theorem repaired_eq_true_iff (w : Info) (c e : Code) : repaired w c e = true ↔ decodeWord (inject c e) = w :=
  beq_iff_eq

/-- A pattern is repaired when it has weight at most 1, and no other is (43_locator_corrector.md R69). -/
theorem repaired_encodeWord_iff (w : Info) (e : Code) : repaired w (encodeWord w) e = true ↔ weight e ≤ 1 := by
  rw [repaired_eq_true_iff]
  constructor
  · intro hback
    by_contra hweight
    exact decodeWord_ne_of_two_le_popcount (Nat.lt_of_not_le hweight) hback
  · intro hweight
    exact decodeWord_eq_of_correctedWord (correctedWord_encodeWord_xor w hweight)

theorem countP_repaired_weightClass_one (w : Info) :
    (weightClass 1).countP (repaired w (encodeWord w)) = (weightClass 1).length :=
  List.countP_eq_length.2 fun e he => (repaired_encodeWord_iff w e).2 ((mem_weightClass 1 e).1 he).2.le

theorem countP_repaired_weightClass_of_two_le (w : Info) {k : Nat} (hk : 2 ≤ k) :
    (weightClass k).countP (repaired w (encodeWord w)) = 0 := by
  refine List.countP_eq_zero.2 fun e he hrep => ?_
  have hweight : weight e = k := ((mem_weightClass k e).1 he).2
  have hle := (repaired_encodeWord_iff w e).1 hrep
  omega

/-- Class 1 has rate exactly 1 (44_analyzer_harness.md R76). -/
theorem rate_one (w : Info) : rate w 1 = ⟨7, 7, 1⟩ := by
  have hsize : (weightClass 1).length = 7 := weightClass_length 1 (by decide) le_rfl
  have hfrac : mkRat 7 7 = 1 := by decide
  simp only [rate, countP_repaired_weightClass_one, hsize, Nat.cast_ofNat, hfrac]

/-- Every other class has rate exactly 0 (44_analyzer_harness.md R76). -/
theorem rate_of_two_le (w : Info) {k : Nat} (h2 : 2 ≤ k) (h7 : k ≤ 7) : rate w k = ⟨0, Nat.choose 7 k, 0⟩ := by
  have hsize : (weightClass k).length = Nat.choose 7 k := weightClass_length k (by omega) (by omega)
  simp only [rate, countP_repaired_weightClass_of_two_le w h2, hsize, Nat.cast_zero, Rat.zero_mkRat]

/-- No class the report visits is empty (44_analyzer_harness.md R75). -/
theorem weightClass_length_ne_zero {k : Nat} (h1 : 1 ≤ k) (h7 : k ≤ 7) : (weightClass k).length ≠ 0 := by
  rw [weightClass_length k (by omega) h1]
  exact (Nat.choose_pos h7).ne'

/-- Settles O52: what the machine reads after ENC and DEC is `decodeWord` of the injected codeword, which `repaired` compares
with the reference word; the rest is how `rate` is made. -/
theorem rateCountsTheRepairs : Obligations.RateCountsTheRepairs := by
  refine ⟨fun s w e => ⟨_, _, exec_enc s w, exec_dec _ _, repaired_eq_true_iff w _ e⟩, fun w k h1 h7 => ?_, rate_one _⟩
  exact ⟨List.countP_eq_length_filter, rfl, weightClass_length_ne_zero h1 h7, Rat.mkRat_eq_div _ _⟩

end Sys2Proof.Machine

/-! The analysis run (44_analyzer_harness.md R78): the harness goes through the classes in order, so it is one walk through
all their patterns, and that walk is a run of the machine over the presented lines. -/

namespace Sys2Proof.Machine

/-! ### The walk through a list of patterns -/

/-- The machine after the patterns were injected into a codeword and decoded, one after another. -/
def afterPatterns (c : Code) (es : List Code) (s : State) : State := es.foldl (fun t e => afterDec t (inject c e)) s

@[simp] theorem afterPatterns_nil (c : Code) (s : State) : afterPatterns c [] s = s := rfl

@[simp] theorem afterPatterns_cons (c e : Code) (es : List Code) (s : State) :
    afterPatterns c (e :: es) s = afterPatterns c es (afterDec s (inject c e)) := rfl

theorem afterPatterns_append (c : Code) (es fs : List Code) (s : State) :
    afterPatterns c (es ++ fs) s = afterPatterns c fs (afterPatterns c es s) := List.foldl_append

/-- The walk leaves the last received word on `dec_rx_i` and adds the decoded words to the results, newest first. -/
theorem afterPatterns_eq (c : Code) (es : List Code) (s : State) :
    afterPatterns c es s = { s with
      decRxI := (es.getLast?.map (inject c)).getD s.decRxI
      results := (es.map fun e => Result.info (decodeWord (inject c e))).reverse ++ s.results } := by
  induction es using List.reverseRecOn with
  | nil => rfl
  | append_singleton es e ih => simp [afterPatterns_append, ih, afterDec, answer, driveDec]

/-- A run whose first line presents an evaluation goes on from where the evaluation ends. -/
theorem run_evaluation {i : Instr} {s t : State} {rest : List Line} (k : Nat) (hp : s.pending = encode i :: rest)
    (hi : decode (encode i) = i) (h : exec i { s with pending := rest } = .next t) :
    Sys2Proof.core.run (k + 1) s = Sys2Proof.core.run k t :=
  run_succ k (by rw [step_cons hp, hi, h])

/-- Presented as lines of DEC, the patterns are that walk as a run of the machine. -/
theorem run_dec_lines (c : Code) (es : List Code) (rest : List Line) (s : State) :
    Sys2Proof.core.run es.length { s with pending := es.map (fun e => encode (.dec (inject c e))) ++ rest } =
      .next (afterPatterns c es { s with pending := rest }) := by
  induction es generalizing s with
  | nil => rfl
  | cons e es ih =>
    exact Eq.trans (run_evaluation es.length rfl (decode_encode_dec _) (exec_dec _ _)) (ih (afterDec s (inject c e)))

/-! ### The classes one after another -/

/-- One class of the mapping adds its rate to the report and walks through its patterns. -/
theorem analyzeClass_eq (w : Info) (rates : List (Nat × Rate)) (s : State) (k : Nat) :
    analyzeClass w ⟨encodeWord w, rates, s⟩ (k, weightClass k) =
      some ⟨encodeWord w, rates ++ [(k, rate w k)], afterPatterns (encodeWord w) (weightClass k) s⟩ := by
  simp only [analyzeClass, rateOn_eq]
  rfl

theorem foldlM_analyzeClass (w : Info) (ks : List Nat) (rates : List (Nat × Rate)) (s : State) :
    (ks.map fun k => (k, weightClass k)).foldlM (analyzeClass w) ⟨encodeWord w, rates, s⟩ =
      some ⟨encodeWord w, rates ++ ks.map fun k => (k, rate w k),
        afterPatterns (encodeWord w) (ks.map weightClass).flatten s⟩ := by
  induction ks generalizing rates s with
  | nil => simp
  | cons k ks ih =>
    rw [List.map_cons, List.foldlM_cons, analyzeClass_eq, Option.bind_eq_bind, Option.bind_some, ih]
    simp [afterPatterns_append]

/-- The patterns in the order of the run: class by class, ascending in each (log entry 13). -/
def classPatterns : List Code := (classify.map Prod.snd).flatten

theorem classPatterns_eq : classPatterns = (classKeys.map weightClass).flatten := by
  rw [classPatterns, classify_eq_map, List.map_map]
  rfl

/-- The whole run: ENC once, then the walk through all classes (44_analyzer_harness.md R78). -/
theorem analyze_eq (w : Info) (s : State) :
    analyze w s = some ⟨encodeWord w, classKeys.map fun k => (k, rate w k),
      afterPatterns (encodeWord w) classPatterns (answer (.code (encodeWord w)) (driveEnc w s))⟩ := by
  rw [analyze, invokeEncode_eq, classify_eq_map, classPatterns_eq]
  exact foldlM_analyzeClass w classKeys [] _

/-! ### The 127 patterns of the run -/

theorem classPatterns_length : classPatterns.length = 127 := by
  rw [classPatterns, List.length_flatten, List.map_map]
  exact classify_sum_length

theorem mem_classPatterns (e : Code) : e ∈ classPatterns ↔ e ≠ 0#7 := by
  rw [classPatterns_eq, List.mem_flatten]
  constructor
  · rintro ⟨_, hm, he⟩
    obtain ⟨k, -, rfl⟩ := List.mem_map.1 hm
    exact ((mem_weightClass k e).1 he).1
  · intro he
    have hkey : weight e ∈ classKeys := (mem_classKeys _).2 ⟨one_le_weight e he, weight_le_seven e⟩
    exact ⟨_, List.mem_map_of_mem hkey, (mem_weightClass _ e).2 ⟨he, rfl⟩⟩

theorem weightClass_disjoint {k k' : Nat} (h : k ≠ k') : (weightClass k).Disjoint (weightClass k') :=
  fun e he he' => h (((mem_weightClass k e).1 he).2.symm.trans ((mem_weightClass k' e).1 he').2)

theorem classPatterns_nodup : classPatterns.Nodup := by
  have hkeys : classKeys.Pairwise (· ≠ ·) := by decide
  rw [classPatterns_eq]
  exact List.nodup_flatten.2 ⟨List.forall_mem_map.2 fun k _ => weightClass_nodup k,
    List.pairwise_map.2 (hkeys.imp weightClass_disjoint)⟩

/-- The class visited last holds the word of all ones alone. -/
theorem classPatterns_getLast? : classPatterns.getLast? = some 0b1111111#7 := by decide

/-! ### The run on the machine -/

/-- The run's lines, presented together, take the machine where the analysis leaves it (log entries 5 and 6). -/
theorem run_analysis_lines (w : Info) (c : Code) (es : List Code) (s : State) :
    Sys2Proof.core.run (es.length + 1) { s with
      pending := encode (.enc w) :: es.map (fun e => encode (.dec (inject c e))) ++ s.pending } =
      .next (afterPatterns c es (answer (.code (encodeWord w)) (driveEnc w s))) :=
  Eq.trans (run_evaluation es.length rfl (decode_encode_enc w) (exec_enc _ w))
    (run_dec_lines c es s.pending (answer (.code (encodeWord w)) (driveEnc w s)))

/-- The rates of the report are those of R76. -/
theorem classKeys_rates (w : Info) : (classKeys.map fun k => (k, rate w k)) =
    [(1, ⟨7, 7, 1⟩), (2, ⟨0, 21, 0⟩), (3, ⟨0, 35, 0⟩), (4, ⟨0, 35, 0⟩), (5, ⟨0, 21, 0⟩), (6, ⟨0, 7, 0⟩),
      (7, ⟨0, 1, 0⟩)] := by
  simp [classKeys, rate_one, rate_of_two_le, Nat.choose]

/-- Settles O56: the analysis is one walk through the 127 patterns after ENC, the same states as a run over the lines, and
its report is the rate of each class. -/
theorem analysisRunUsesTheBlock : Obligations.AnalysisRunUsesTheBlock := by
  intro w s
  have hrun := run_analysis_lines w (encodeWord w) classPatterns s
  rw [classPatterns_length] at hrun
  refine ⟨_, encodeWord w, classPatterns, analyze_eq w s, rfl, rfl, rfl, classPatterns_length, classPatterns_nodup,
    mem_classPatterns, hrun, ?final, rfl, classKeys_rates w⟩
  case final =>
    dsimp only
    rw [afterPatterns_eq, classPatterns_getLast?]
    rfl

end Sys2Proof.Machine

/-! The report's demonstration as a program (44_analyzer_harness.md R77, 30_encoding.md R44). -/

namespace Sys2Proof.Machine

/-- A program goes on from where its first line ends. -/
theorem foldlM_runLine_cons {p q : ProgState} {l : ProgLine} (ls : List ProgLine) (h : runLine p l = .ok q) :
    (l :: ls).foldlM runLine p = ls.foldlM runLine q := by
  rw [List.foldlM_cons, h]
  rfl

/-- INJ leaves the machine alone; its value is the injected word (44_analyzer_harness.md R71). -/
theorem runLine_inj {p : ProgState} {c e : Ref} {v w : Nat} (hc : c.resolve p.env = .ok (.int v))
    (he : e.resolve p.env = .ok (.int w)) :
    runLine p (.inj c e) = .ok ⟨p.machine, p.env ++ [.int (inject (trunc 7 v) (trunc 7 w)).toNat]⟩ := by
  simp [runLine, hc, he, bind, Except.bind]

/-- The machine after the demonstration: the reference word and the received word on the inputs, and the five results. -/
def afterDemonstration (s : State) : State := { s with
  encDataI := Config.wRef, decRxI := 0b0110111#7
  results := .info 0b1011#4 :: .corrected 0b0110011#7 :: .flip 0b0000100#7 :: .syndrome 0b101#3 ::
    .code 0b0110011#7 :: s.results }

/-- The ports carry the words of the five lines (44_analyzer_harness.md R77). -/
theorem afterDemonstration_ports (s : State) : (afterDemonstration s).encCodeO = 0b0110011#7 ∧
    (afterDemonstration s).decSynO = 0b101#3 ∧ (afterDemonstration s).decFlipO = 0b0000100#7 ∧
    (afterDemonstration s).decCorO = 0b0110011#7 ∧ (afterDemonstration s).decDataO = 0b1011#4 := by
  simp only [encCodeO_eq, decSynO_eq, decFlipO_eq, decCorO_eq, decDataO_eq, afterDemonstration]
  decide

/-- Settles O54: each line is one evaluation of the machine, or INJ outside it, on the values of the lines before. -/
theorem demonstrationIsCorrected : Obligations.DemonstrationIsCorrected := by
  intro s
  refine ⟨⟨afterDemonstration s, _⟩, ?run, rfl, afterDemonstration_ports s⟩
  case run =>
    refine Eq.trans (foldlM_runLine_cons _ (runLine_eval rfl rfl (exec_enc _ _) rfl)) ?_
    refine Eq.trans (foldlM_runLine_cons _ (runLine_inj rfl rfl)) ?_
    refine Eq.trans (foldlM_runLine_cons _ (runLine_eval rfl rfl (exec_syn _ _) rfl)) ?_
    refine Eq.trans (foldlM_runLine_cons _ (runLine_eval rfl rfl (exec_loc _ _) rfl)) ?_
    refine Eq.trans (foldlM_runLine_cons _ (runLine_eval rfl rfl (exec_cor _ _ _) rfl)) ?_
    refine Eq.trans (foldlM_runLine_cons _ (runLine_eval rfl rfl (exec_ext _ _) rfl)) ?_
    rfl

end Sys2Proof.Machine

/-! Every evaluation completes, and no fault can be written (60_exceptions.md R79, R83). -/

namespace Sys2Proof.Machine

/-- `Fault` has no constructor: the block raises no exception (60_exceptions.md R79). -/
theorem no_fault (f : Fault) : False := nomatch f

/-- Settles O45: each operation ends in a next state with one result more, and there is no fault to end in. -/
theorem everyEvaluationCompletes : Obligations.EveryEvaluationCompletes := by
  refine ⟨fun i s => ?completes, no_fault⟩
  case completes =>
    obtain ⟨t, r, hexec, hresults, -⟩ := exec_completes i s
    exact ⟨t, r, hexec, hresults⟩

end Sys2Proof.Machine

/-! Lines and the two conversions (30_encoding.md sections 1 to 3, 40_conversion.md): FROMBITS and TOBITS undo each other, up to
the cut to the length; so a line and its evaluation determine each other. -/

namespace Sys2Proof.Machine

/-! ### TOBITS and FROMBITS undo each other -/

/-- One more bit of length is one more bit in front (40_conversion.md R46). -/
theorem toBits_succ (v L : Nat) : toBits v (L + 1) = v.testBit L :: toBits v L := by
  rw [toBits, List.range_succ_eq_map, List.map_cons, List.map_map]
  refine congrArg (v.testBit L :: ·) (List.map_congr_left fun j _ => congrArg v.testBit ?_)
  omega

/-- TOBITS undoes FROMBITS, at the length of the sequence (40_conversion.md R48). -/
theorem toBits_fromBits (q : List Bit) : toBits (fromBits q) q.length = q := by
  induction q with
  | nil => rfl
  | cons b q ih =>
    have hlt := fromBits_lt q
    have hhead : (2 ^ q.length * b.toNat + fromBits q).testBit q.length = b := by
      rw [Nat.testBit_two_pow_mul_add _ hlt, if_neg (lt_irrefl _), Nat.sub_self]
      cases b <;> rfl
    have htail : (2 ^ q.length * b.toNat + fromBits q) % 2 ^ q.length = fromBits q := by
      rw [Nat.mul_add_mod, Nat.mod_eq_of_lt hlt]
    rw [fromBits_cons, List.length_cons, toBits_succ, hhead, ← toBits_mod_two_pow, htail, ih]

/-- FROMBITS after TOBITS leaves the low bits of the integer (40_conversion.md R48). -/
theorem fromBits_toBits (v L : Nat) : fromBits (toBits v L) = v % 2 ^ L := by
  induction L with
  | zero => rw [toBits_zero_right, fromBits_nil, pow_zero, Nat.mod_one]
  | succ L ih => rw [toBits_succ, fromBits_cons, toBits_length, ih, Nat.mod_pow_succ, Nat.toNat_testBit, Nat.add_comm]

/-- The bit at place `j` of a sequence has weight `2^(L-1-j)` (40_conversion.md R47). -/
theorem fromBits_eq_sum (q : List Bit) : fromBits q =
    (Finset.range q.length).sum (fun j => (q[j]?.getD false).toNat * 2 ^ (q.length - 1 - j)) := by
  induction q with
  | nil => rfl
  | cons b q ih =>
    rw [fromBits_cons, ih, List.length_cons, Finset.sum_range_succ', Nat.add_comm, Nat.mul_comm]
    refine congrArg₂ (· + ·) (Finset.sum_congr rfl fun j _ => ?_) rfl
    rw [List.getElem?_cons_succ]
    congr 2
    omega

theorem getElem?_eq_testBit_fromBits (q : List Bit) (j : Nat) (h : j < q.length) :
    q[j]? = some ((fromBits q).testBit (q.length - 1 - j)) := by
  have hget := toBits_getElem? (fromBits q) q.length j h
  rwa [toBits_fromBits] at hget

theorem fromBits_replicate_true (n : Nat) : fromBits (List.replicate n true) = 2 ^ n - 1 := by
  rw [← toBits_two_pow_sub_one, fromBits_toBits, Nat.mod_eq_of_lt (Nat.sub_one_lt (Nat.two_pow_pos n).ne')]

/-! ### Lines -/

theorem encode_op (i : Instr) : (encode i).op = i.op := by cases i <;> rfl

/-- Settles O4: a port's word comes back because it is not cut, COR's two because neither overlaps the other, and a sequence
because TOBITS undoes FROMBITS. -/
theorem decodeOfEncodeIsTheInstruction : Obligations.DecodeOfEncodeIsTheInstruction := by
  intro i
  refine ⟨?_, encode_op i⟩
  cases i
  case tobits v len => rfl
  case frombits q => exact congrArg Instr.frombits (toBits_fromBits q)
  case pgen d => exact congrArg Instr.pgen (trunc_of_toNat d)
  case enc d => exact congrArg Instr.enc (trunc_of_toNat d)
  case syn r => exact congrArg Instr.syn (trunc_of_toNat r)
  case loc y => exact congrArg Instr.loc (trunc_of_toNat y)
  case cor r f => exact decode_encode_cor r f
  case ext c => exact congrArg Instr.ext (trunc_of_toNat c)
  case dec r => exact congrArg Instr.dec (trunc_of_toNat r)

/-- A word of `L` bits is not cut to `L` bits. -/
theorem trunc_toNat_of_lt {L v : Nat} (h : v < 2 ^ L) : (trunc L v).toNat = v :=
  (trunc_toNat L v).trans (Nat.mod_eq_of_lt h)

/-- A word of 14 bits is its high and its low seven bits side by side (30_encoding.md R40). -/
theorem cor_word_of_halves {w : Nat} (h : w < 2 ^ 14) :
    ((trunc 7 (w >>> 7)).toNat <<< 7) ||| (trunc 7 w).toNat = w := by
  rw [← Nat.shiftLeft_add_eq_or_of_lt (trunc 7 w).isLt, Nat.shiftLeft_eq, trunc_toNat, trunc_toNat,
    Nat.shiftRight_eq_div_pow]
  omega

/-- A sequence as long as the line says is presented by that line again. -/
theorem encode_decode_frombits {n w : Nat} (h : w < 2 ^ n) : encode (decode ⟨.frombits, n, w⟩) = ⟨.frombits, n, w⟩ := by
  simp only [decode, encode, toBits_length, fromBits_toBits, Nat.mod_eq_of_lt h]

/-- A word that fills its formats exactly is presented by the same line again. -/
theorem encode_decode_of_formats {op : Op} {w : Nat} (ht : op ≠ .tobits) (hf : op ≠ .frombits)
    (h : w < 2 ^ op.operandBits) : encode (decode ⟨op, op.operandBits, w⟩) = ⟨op, op.operandBits, w⟩ := by
  cases op
  case tobits => exact absurd rfl ht
  case frombits => exact absurd rfl hf
  case cor => exact congrArg (Line.mk .cor 14) (cor_word_of_halves h)
  case pgen | enc | syn | loc | ext | dec => exact congrArg (Line.mk _ _) (trunc_toNat_of_lt h)

/-- Settles O5: in each of the three cases nothing of the word is cut off by decoding. -/
theorem encodeOfDecodeIsTheLine : Obligations.EncodeOfDecodeIsTheLine := by
  rintro ⟨op, n, w⟩ (hop | ⟨hop, hw⟩ | ⟨ht, hf, hn, hw⟩)
  · obtain rfl : op = .tobits := hop
    rfl
  · obtain rfl : op = .frombits := hop
    exact encode_decode_frombits hw
  · obtain rfl : n = op.operandBits := hn
    exact encode_decode_of_formats ht hf hw

/-- Settles O1: the nine words are decoded. -/
theorem writtenOutWordsDecode : Obligations.WrittenOutWordsDecode := by
  unfold Obligations.WrittenOutWordsDecode
  decide

/-- `match` and `mask` are 0 in every row, so no bit is compared (30_encoding.md R40). -/
theorem op_matches (op : Op) (w : Nat) : op.matches w = true := beq_iff_eq.2 (Nat.and_zero w)

theorem decodeAll_eq_map (n w : Nat) : decodeAll n w = Op.all.map fun op => decode ⟨op, n, w⟩ := by
  rw [decodeAll, List.filter_eq_self.2 fun op _ => op_matches op w]

/-- Settles O3: the mask of every row is 0, so the table's filter keeps all nine rows. -/
theorem noBitSelectsAnOperation : Obligations.NoBitSelectsAnOperation :=
  ⟨rfl, fun op => by cases op <;> decide, op_matches, decodeAll_eq_map⟩

/-! ### The conversions on the machine -/

/-- Settles O9: the integer read is `fromBits q`, in every state; its bound, its weights and its bits are the laws of
`fromBits`, and the document's sequences are evaluated. -/
theorem frombitsGivesTheInteger : Obligations.FrombitsGivesTheInteger := by
  refine ⟨fun s q => ⟨fromBits q, exec_frombits s q, fromBits_lt q, fromBits_eq_sum q, getElem?_eq_testBit_fromBits q,
    ?empty, ?ones⟩, by decide, by decide, by decide⟩
  case empty => rintro rfl; exact fromBits_nil
  case ones => intro hq; exact (congrArg fromBits hq).trans (fromBits_replicate_true _)

/-- FROMBITS of a sequence whose integer is known. -/
theorem exec_frombits_of_fromBits {q : List Bit} {v : Nat} (s : State) (h : fromBits q = v) :
    exec (.frombits q) s = .next { s with results := .integer v :: s.results } := by
  rw [exec_frombits, h, answer]

/-- Settles O10: each conversion undoes the other, up to the cut to the length, and an integer that fits is not cut. -/
theorem conversionsAreInverse : Obligations.ConversionsAreInverse := by
  refine ⟨fun s v L _ hv => ?fits, fun s v L => ?cut, fun s q => ?back⟩
  case fits =>
    exact ⟨_, _, exec_tobits s v L, rfl,
      exec_frombits_of_fromBits _ ((fromBits_toBits v L).trans (Nat.mod_eq_of_lt hv))⟩
  case cut => exact ⟨_, _, exec_tobits s v L, rfl, exec_frombits_of_fromBits _ (fromBits_toBits v L)⟩
  case back =>
    refine ⟨_, _, exec_frombits s q, rfl, ?_⟩
    rw [exec_tobits, toBits_fromBits, answer]

end Sys2Proof.Machine

/-! The code (41_encoder.md): its words are exactly the words of syndrome 0, the kernel of a linear function, so the code is
linear and its minimum distance is the least weight of a codeword other than 0. -/

namespace Sys2Proof.Machine

/-! ### Codewords are the words of syndrome 0 -/

/-- The encoder is systematic: EXT takes the information word out of the codeword (41_encoder.md R52). -/
theorem extract_encodeWord (d : Info) : extract (encodeWord d) = d := by
  rw [← correctedWord_encodeWord d]
  exact decodeWord_encodeWord d

theorem flipMask_of_syndrome_zero {r : Code} (h : syndrome r = 0#3) : flipMask r = 0#7 := by
  rw [flipMask, h]; exact locate_zero

theorem correctedWord_of_syndrome_zero {r : Code} (h : syndrome r = 0#3) : correctedWord r = r := by
  rw [correctedWord, correct, flipMask_of_syndrome_zero h, BitVec.xor_zero]

/-- A word that passes the checks is the codeword of its data positions: nothing is flipped before they are taken
(42_syndrome.md R58). -/
theorem encodeWord_extract_of_syndrome_zero {c : Code} (h : syndrome c = 0#3) : encodeWord (extract c) = c := by
  have hdec : decodeWord c = extract c := congrArg extract (correctedWord_of_syndrome_zero h)
  rw [← hdec, encodeWord_decodeWord, correctedWord_of_syndrome_zero h]

theorem syndrome_eq_zero_iff (r : Code) : syndrome r = 0#3 ↔ ∃ d : Info, r = encodeWord d := by
  constructor
  · exact fun h => ⟨extract r, (encodeWord_extract_of_syndrome_zero h).symm⟩
  · rintro ⟨d, rfl⟩
    exact syndrome_encodeWord d

/-- The sixteen words of R53, and no other, are codewords. -/
theorem exists_encodeWord_iff_mem (c : Code) : (∃ d : Info, encodeWord d = c) ↔ c.toNat ∈ codewordValues := by
  constructor
  · rintro ⟨d, rfl⟩
    exact encodeWord_mem_codewordValues d
  · intro hc
    obtain ⟨d, hd⟩ := exists_encodeWord_of_mem _ hc
    exact ⟨d, BitVec.eq_of_toNat_eq hd⟩

/-! ### Linearity -/

/-- Each wire of the extracted word is one wire, so EXT is linear. -/
theorem extract_xor (a b : Code) : extract (a ^^^ b) = extract a ^^^ extract b := by
  obtain ⟨ha3, ha2, ha1, ha0⟩ := extract_wires a
  obtain ⟨hb3, hb2, hb1, hb0⟩ := extract_wires b
  obtain ⟨hx3, hx2, hx1, hx0⟩ := extract_wires (a ^^^ b)
  refine BitVec.eq_of_getLsbD_eq fun i hi => ?_
  rw [BitVec.getLsbD_xor]
  interval_cases i
  · rw [hx0, ha0, hb0, BitVec.getLsbD_xor]
  · rw [hx1, ha1, hb1, BitVec.getLsbD_xor]
  · rw [hx2, ha2, hb2, BitVec.getLsbD_xor]
  · rw [hx3, ha3, hb3, BitVec.getLsbD_xor]

/-- The XOR of two codewords passes the checks, so it is the codeword of its data positions (41_encoder.md R52). -/
theorem encodeWord_xor (a b : Info) : encodeWord (a ^^^ b) = encodeWord a ^^^ encodeWord b := by
  have hsyn : syndrome (encodeWord a ^^^ encodeWord b) = 0#3 := by
    rw [syndrome_encodeWord_xor, syndrome_encodeWord]
  rw [← encodeWord_extract_of_syndrome_zero hsyn, extract_xor, extract_encodeWord, extract_encodeWord]

theorem encodeWord_injective : Function.Injective encodeWord := fun a b h => by
  rw [← extract_encodeWord a, h, extract_encodeWord]

theorem encodeWord_zero : encodeWord 0#4 = 0#7 := by decide

/-- R52's rows: each information bit selects the codeword of its one-hot word. -/
theorem encodeWord_eq_rows : ∀ d : Info, encodeWord d =
    (if d.getLsbD 3 then 0b1110000#7 else 0#7) ^^^ (if d.getLsbD 2 then 0b1001100#7 else 0#7) ^^^
      (if d.getLsbD 1 then 0b0101010#7 else 0#7) ^^^ (if d.getLsbD 0 then 0b1101001#7 else 0#7) := by decide

/-- EXT of a word whose data positions are known. -/
theorem exec_ext_of_extract {c : Code} {d : Info} (s : State) (h : extract c = d) :
    exec (.ext c) s = .next (answer (.info d) s) := by
  rw [exec_ext, h]

/-- Settles O14: EXT undoes ENC, which makes ENC injective; it is linear because the code is the kernel of the checks. -/
theorem encoderIsSystematicInjectiveLinear : Obligations.EncoderIsSystematicInjectiveLinear := fun s a b =>
  ⟨_, _, _, _, exec_enc s a, exec_enc s b, exec_enc s (a ^^^ b), exec_ext_of_extract _ (extract_encodeWord a), rfl,
    ⟨encodeWord_wire4 a, encodeWord_wire2 a, encodeWord_wire1 a, encodeWord_wire0 a⟩, encodeWord_injective.ne,
    encodeWord_xor a b, fun ha => (congrArg encodeWord ha).trans encodeWord_zero, encodeWord_eq_rows a⟩

/-! ### The complete table -/

/-- What PGEN and ENC answer for one information word, as a row of the function table (41_encoder.md R53). -/
def tableRow (d : Info) : Info × Bit × Bit × Bit × Code := (d, parity1 d, parity2 d, parity4 d, encodeWord d)

/-- The function table of PGEN and ENC, computed. -/
def encoderTable : List (Info × Bit × Bit × Bit × Code) := (List.range 16).map fun i => tableRow (trunc 4 i)

/-- The codewords in the order of the table's rows. -/
theorem rowValues_perm_codewordValues :
    [0, 105, 42, 67, 76, 37, 102, 15, 112, 25, 90, 51, 60, 85, 22, 127].Perm codewordValues := by decide

/-- Settles O15: the spec's table is the computed one, whose rows PGEN and ENC answer, and its codewords are all of them. -/
theorem encoderTableIsComplete : Obligations.EncoderTableIsComplete := by
  refine ⟨fun s row hrow => ?row, fun c => ?onto⟩
  case row =>
    have hcomputed : row ∈ encoderTable := hrow
    obtain ⟨i, -, rfl⟩ := List.mem_map.1 hcomputed
    exact ⟨_, _, exec_pgen s _, rfl, rfl, rfl, rfl, exec_enc s _, rfl, rfl⟩
  case onto => exact (exists_encodeWord_iff_mem c).trans rowValues_perm_codewordValues.mem_iff.symm

/-! ### Positions -/

/-- DATA_POS of a codeword hold the information word, most significant bit first (00_scope.md R7). -/
theorem dataPos_encodeWord (d : Info) : Config.dataPos.map (position (encodeWord d)) = toBits d.toNat Config.k := by
  have hdata : Config.dataPos.map (position (encodeWord d)) =
      [(encodeWord d).getLsbD 4, (encodeWord d).getLsbD 2, (encodeWord d).getLsbD 1, (encodeWord d).getLsbD 0] := rfl
  rw [hdata, encodeWord_wire4, encodeWord_wire2, encodeWord_wire1, encodeWord_wire0]
  rfl

/-- PARITY_POS of a codeword hold the three parities (00_scope.md R7). -/
theorem parityPos_encodeWord (d : Info) :
    Config.parityPos.map (position (encodeWord d)) = [parity1 d, parity2 d, parity4 d] := by
  rw [← encodeWord_wire6, ← encodeWord_wire5, ← encodeWord_wire3]
  rfl

/-- Settles O16: each position is a wire of the codeword, and the two lists are the seven positions. -/
theorem encoderPlacesDataAndParity : Obligations.EncoderPlacesDataAndParity :=
  ⟨fun s d => ⟨_, exec_enc s d, dataPos_encodeWord d, parityPos_encodeWord d⟩, by decide, rfl, rfl⟩

/-! ### Distance and weights -/

/-- The least weight of a codeword other than 0 (41_encoder.md R54). -/
theorem three_le_popcount_encodeWord : ∀ d : Info, d ≠ 0#4 → 3 ≤ popcount (encodeWord d) := by decide

theorem popcount_encodeWord_mem : ∀ d : Info, popcount (encodeWord d) ∈ [0, 3, 4, 7] := by decide

theorem popcount_eq_zero_iff : ∀ c : Code, popcount c = 0 ↔ c = 0#7 := by decide

theorem popcount_encodeWord_eq_three_iff : ∀ d : Info, popcount (encodeWord d) = 3 ↔ encodeWord d ∈ [0b0101010#7,
    0b1000011#7, 0b1001100#7, 0b0100101#7, 0b1110000#7, 0b0011001#7, 0b0010110#7] := by decide

theorem popcount_encodeWord_eq_four_iff : ∀ d : Info, popcount (encodeWord d) = 4 ↔ encodeWord d ∈ [0b1101001#7,
    0b1100110#7, 0b0001111#7, 0b1011010#7, 0b0110011#7, 0b0111100#7, 0b1010101#7] := by decide

theorem popcount_eq_seven_iff : ∀ c : Code, popcount c = 7 ↔ c = 0b1111111#7 := by decide

/-- Two codewords differ by the codeword of the difference, so in three places at least (41_encoder.md R54). -/
theorem three_le_popcount_xor {d d' : Info} (h : d ≠ d') : 3 ≤ popcount (encodeWord d ^^^ encodeWord d') := by
  rw [← encodeWord_xor]
  refine three_le_popcount_encodeWord _ fun h0 => h ?_
  rwa [BitVec.xor_eq_zero_iff] at h0

/-- Settles O17: linearity reduces the distance to the weights, and those are evaluated on the sixteen codewords. -/
theorem codewordsDifferInThreePlaces : Obligations.CodewordsDifferInThreePlaces := by
  intro s d d'
  refine ⟨_, _, exec_enc s d, exec_enc s d', three_le_popcount_xor, ?light, popcount_encodeWord_mem d,
    popcount_eq_zero_iff _, popcount_encodeWord_eq_three_iff d, popcount_encodeWord_eq_four_iff d,
    popcount_eq_seven_iff _⟩
  case light =>
    intro hc
    have hd : d ≠ 0#4 := fun h0 => hc ((congrArg encodeWord h0).trans encodeWord_zero)
    have hw := three_le_popcount_encodeWord d hd
    show popcount (encodeWord d) ≠ 1 ∧ popcount (encodeWord d) ≠ 2
    omega

end Sys2Proof.Machine

/-! The syndrome of a received word (42_syndrome.md): masked parities, the position of a single error, and the error alone. -/

namespace Sys2Proof.Machine

/-! ### Masks -/

theorem toNat_xor : ∀ x y : Bit, (x ^^ y).toNat = (x.toNat + y.toNat) % 2 := by decide

/-- Each check is the parity of four wires, which a mask picks (42_syndrome.md R57). -/
theorem check1_toNat (r : Code) : (check1 r).toNat = popcount (r &&& 0b1010101#7) % 2 := by
  simp [check1, codeBit, popcount, toNat_xor, Nat.add_assoc]

theorem check2_toNat (r : Code) : (check2 r).toNat = popcount (r &&& 0b0110011#7) % 2 := by
  simp [check2, codeBit, popcount, toNat_xor, Nat.add_assoc]

theorem check3_toNat (r : Code) : (check3 r).toNat = popcount (r &&& 0b0001111#7) % 2 := by
  simp [check3, codeBit, popcount, toNat_xor, Nat.add_assoc]

theorem syndrome_zero : syndrome 0#7 = 0#3 := rfl

/-- Settles O19: SYN reads `syndrome`, which is linear, and whose wires are the three checks. -/
theorem syndromeIsLinear : Obligations.SyndromeIsLinear := by
  intro s a b
  obtain ⟨hwire0, hwire1, hwire2⟩ := syndrome_wires a
  exact ⟨_, _, _, _, exec_syn s a, exec_syn s b, exec_syn s (a ^^^ b), exec_syn s 0#7, syndrome_xor a b, syndrome_zero,
    (congrArg Bool.toNat hwire0).trans (check1_toNat a), (congrArg Bool.toNat hwire1).trans (check2_toNat a),
    (congrArg Bool.toNat hwire2).trans (check3_toNat a)⟩

/-! ### Codewords -/

theorem exists_enc_encCodeO_iff (s : State) (r : Code) :
    (∃ (d : Info) (u : State), exec (.enc d) s = .next u ∧ u.encCodeO = r) ↔ ∃ d : Info, encodeWord d = r := by
  refine exists_congr fun d => ⟨?_, fun h => ⟨_, exec_enc s d, h⟩⟩
  rintro ⟨u, hu, rfl⟩
  rw [← Host.Outcome.next.inj hu, answer_encCodeO, driveEnc_encCodeO]

theorem syndrome_eq_zero_iff_encodeWord_eq (r : Code) : syndrome r = 0#3 ↔ ∃ d : Info, encodeWord d = r :=
  (syndrome_eq_zero_iff r).trans (exists_congr fun _ => eq_comm)

/-- Each syndrome value is taken by 16 of the 128 words (42_syndrome.md R58). -/
theorem length_filter_syndrome_eq :
    ∀ y : Synd, ((List.range 128).filter fun n => syndrome (trunc 7 n) == y).length = 16 := by decide

/-- Settles O20: a word of syndrome 0 is the codeword of its data positions; the words of each syndrome are counted. -/
theorem zeroSyndromeMeansCodeword : Obligations.ZeroSyndromeMeansCodeword :=
  ⟨fun s r => ⟨_, exec_syn s r, (syndrome_eq_zero_iff_encodeWord_eq r).trans (exists_enc_encCodeO_iff s r).symm,
    (syndrome_eq_zero_iff_encodeWord_eq r).trans (exists_encodeWord_iff_mem r)⟩, length_filter_syndrome_eq⟩

/-- Settles O37: the consumer's comparison is that of the syndrome with 0, and the XOR of two codewords passes the checks. -/
theorem consumerSeesOnlyNonCodewords : Obligations.ConsumerSeesOnlyNonCodewords := by
  intro s
  have hsees : consumerSeesError s = false ↔ ∃ d : Info, s.decRxI = encodeWord d :=
    bne_eq_false_iff_eq.trans (syndrome_eq_zero_iff s.decRxI)
  refine ⟨hsees, fun d e he => hsees.2 ⟨d ^^^ e, ?_⟩⟩
  rw [he, inject, encodeWord_xor]

/-! ### Positions -/

/-- The syndrome of a single set bit is its position (42_syndrome.md R59). -/
theorem syndrome_unit7 {p : Nat} (h1 : 1 ≤ p) (h7 : p ≤ 7) : syndrome (unit7 p) = trunc 3 p := by
  have hp : (trunc 3 p).toNat = p := trunc_toNat_of_lt (Nat.lt_succ_of_le h7)
  rw [← locate_inside p h1 h7, ← syndrome_locate (trunc 3 p), hp]

theorem syndrome_unit7_toNat {p : Nat} (h1 : 1 ≤ p) (h7 : p ≤ 7) : (syndrome (unit7 p)).toNat = p := by
  rw [syndrome_unit7 h1 h7, trunc_toNat_of_lt (Nat.lt_succ_of_le h7)]

/-- Position `p` takes part in the check that gives syndrome bit `i` exactly when bit `i` of `p` is 1 (42_syndrome.md R59). -/
theorem syndrome_wire_moves_iff (r : Code) {p : Nat} (h1 : 1 ≤ p) (h7 : p ≤ 7) (i : Nat) :
    (syndrome r).getLsbD i ≠ (syndrome (r ^^^ unit7 p)).getLsbD i ↔ p.testBit i = true := by
  have hbit : (syndrome (unit7 p)).getLsbD i = p.testBit i := by rw [BitVec.getLsbD, syndrome_unit7_toNat h1 h7]
  rw [syndrome_xor, BitVec.getLsbD_xor, hbit]
  cases (syndrome r).getLsbD i <;> cases p.testBit i <;> decide

/-- Settles O21: the mask at position `p` has syndrome `p`, and adding it moves the syndrome's wires by the bits of `p`. -/
theorem syndromeNamesThePosition : Obligations.SyndromeNamesThePosition := fun s r p h1 h7 =>
  ⟨_, _, _, exec_syn s (unit7 p), syndrome_unit7_toNat h1 h7, exec_syn s r, exec_syn s (r ^^^ unit7 p),
    syndrome_wire_moves_iff r h1 h7 0, syndrome_wire_moves_iff r h1 h7 1, syndrome_wire_moves_iff r h1 h7 2⟩

/-! ### Errors -/

/-- The position a syndrome names is not the whole of an error of weight 2 or more (42_syndrome.md R60). -/
theorem ne_unit7_of_two_le_popcount {e : Code} {y : Synd} (he : 2 ≤ popcount e) (hy : y ≠ 0#3) : e ≠ unit7 y.toNat := by
  rintro rfl
  rw [popcount_unit7 _ y.isLt (one_le_toNat_of_ne_zero hy)] at he
  omega

/-- Settles O22: the codeword adds nothing to the syndrome, and an error that is no codeword has a syndrome other than 0. -/
theorem syndromeDependsOnTheErrorAlone : Obligations.SyndromeDependsOnTheErrorAlone := by
  intro s d e
  have hsyn := syndrome_encodeWord_xor d e
  refine ⟨_, _, exec_syn s (encodeWord d ^^^ e), exec_syn s e, hsyn, ?single, ?codeword, ?other⟩
  case single =>
    rintro p h1 h7 rfl
    exact (congrArg BitVec.toNat hsyn).trans (syndrome_unit7_toNat h1 h7)
  case codeword => exact fun he => hsyn.trans ((syndrome_eq_zero_iff e).2 he)
  case other =>
    intro he hno
    have hne : syndrome (encodeWord d ^^^ e) ≠ 0#3 := fun h0 => hno ((syndrome_eq_zero_iff e).1 (hsyn.symm.trans h0))
    exact ⟨hne, ne_unit7_of_two_le_popcount he hne⟩

end Sys2Proof.Machine

/-! The guard, the corrector and what the decoder does to a word it cannot repair (43_locator_corrector.md); the composites
(30_encoding.md section 5). -/

namespace Sys2Proof.Machine

/-- Settles O24: outside 1 to 7 the guard answers no flip, and a 3-bit syndrome other than 0 is inside. -/
theorem boundsGuardSkipsTheFlip : Obligations.BoundsGuardSkipsTheFlip := by
  refine ⟨?outside, fun y _ => ?inside, fun s r => ⟨_, exec_dec s r, fun hy => ⟨?word, locate_of_ne_zero hy⟩⟩⟩
  case outside =>
    rintro n (rfl | h)
    · exact locate_zero
    · exact locate_outside n h
  case inside | word => omega

theorem syndrome_correctedWord (r : Code) : syndrome (correctedWord r) = 0#3 := by
  rw [← encodeWord_decodeWord, syndrome_encodeWord]

/-- Settles O25: COR reads the XOR, in every state; with the block's own mask that is `correctedWord`, a codeword. -/
theorem corAppliesTheFlip : Obligations.CorAppliesTheFlip := by
  refine ⟨fun s r f => ⟨_, exec_cor s r f, rfl, ?own, ?none⟩, fun s r => ?codeword, by decide⟩
  case own =>
    intro hf
    obtain rfl : f = flipMask r := hf
    rfl
  case none => rintro rfl; exact BitVec.xor_zero
  case codeword =>
    exact ⟨_, _, _, exec_syn s r, popcount_flipMask r, exec_cor _ _ _, rfl, exec_syn _ _, syndrome_correctedWord r⟩

/-- The codeword listed in the order of format C7 (41_encoder.md R51). -/
theorem toBits_encodeWord (d : Info) : toBits (encodeWord d).toNat 7 =
    [parity1 d, parity2 d, infoBit d 0, parity4 d, infoBit d 1, infoBit d 2, infoBit d 3] := by
  rw [encodeWord, codeOfBits_toNat rfl]
  exact toBits_fromBits _

/-- Settles O28: each line reads the word the next one needs, and the last reads what DEC reads; ENC lists PGEN's bits. -/
theorem compositesExpand : Obligations.CompositesExpand := by
  refine ⟨?dec, fun s d => ⟨_, _, _, _, _, _, exec_pgen s d, rfl, exec_enc s d, rfl, toBits_encodeWord d⟩⟩
  case dec =>
    intro s r t1 t2 t3 t4 t y f c h1 hy h2 hf h3 hc h4 ht
    obtain rfl := Host.Outcome.next.inj h1
    obtain rfl := Result.syndrome.inj (Option.some.inj hy)
    obtain rfl := Host.Outcome.next.inj h2
    obtain rfl := Result.flip.inj (Option.some.inj hf)
    obtain rfl := Host.Outcome.next.inj h3
    obtain rfl := Result.corrected.inj (Option.some.inj hc)
    obtain rfl := Host.Outcome.next.inj h4
    obtain rfl := Host.Outcome.next.inj ht
    exact ⟨rfl, rfl, rfl⟩

/-! ### The extent of the correction -/

/-- A word that differs from a codeword in one place at most is decoded to that codeword's information word
(43_locator_corrector.md R69). -/
theorem decodeWord_of_near {r : Code} {d : Info} (h : popcount (r ^^^ encodeWord d) ≤ 1) : decodeWord r = d := by
  have hr : encodeWord d ^^^ (r ^^^ encodeWord d) = r := by
    rw [BitVec.xor_comm r, ← BitVec.xor_assoc, BitVec.xor_self, BitVec.zero_xor]
  rw [← hr]
  exact decodeWord_eq_of_correctedWord (correctedWord_encodeWord_xor d h)

/-- The corrected word differs from the received word in the flip alone. -/
theorem xor_encodeWord_decodeWord (r : Code) : r ^^^ encodeWord (decodeWord r) = flipMask r := by
  rw [encodeWord_decodeWord, correctedWord, correct, ← BitVec.xor_assoc, BitVec.xor_self, BitVec.zero_xor]

theorem decodeWord_encodeWord_xor_eq_iff (d : Info) (e : Code) :
    decodeWord (encodeWord d ^^^ e) = d ↔ popcount e ≤ 1 :=
  (repaired_eq_true_iff d (encodeWord d) e).symm.trans (repaired_encodeWord_iff d e)

/-- Settles O31: the decoded word is the one whose codeword is within one flip of the received word. -/
theorem exactExtentOfCorrection : Obligations.ExactExtentOfCorrection := by
  refine ⟨fun s d e => ⟨_, _, exec_enc s d, exec_dec _ _, decodeWord_encodeWord_xor_eq_iff d e, ?wrong⟩, fun r => ?nearest⟩
  case wrong =>
    intro he
    have hne := decodeWord_ne_of_two_le_popcount (d := d) he
    have hcor := (encodeWord_decodeWord (encodeWord d ^^^ e)).symm
    exact ⟨_, hne, hcor, fun h => hne (decodeWord_eq_of_correctedWord h), rfl⟩
  case nearest =>
    refine ⟨decodeWord r, ?_, fun d' hd' => (decodeWord_of_near hd').symm⟩
    rw [xor_encodeWord_decodeWord]
    exact popcount_flipMask r

/-! ### What a flip does to the data bits -/

/-- The decoded word is the received data bits XOR the data bits of the flip (43_locator_corrector.md R70). -/
theorem decodeWord_of_syndrome {r : Code} {y : Synd} (h : syndrome r = y) :
    decodeWord r = extract r ^^^ extract (locate y.toNat) := by
  rw [decodeWord, correctedWord, correct, extract_xor, flipMask, h]

/-- The syndromes of no error and of the parity positions flip no data bit (43_locator_corrector.md R70). -/
theorem extract_locate_parity : ∀ y ∈ [0b000#3, 0b001#3, 0b010#3, 0b100#3], extract (locate y.toNat) = 0#4 := by decide

theorem decodeWord_of_parity_flip {r : Code} (h : syndrome r ∈ [0b000#3, 0b001#3, 0b010#3, 0b100#3]) :
    decodeWord r = extract r ^^^ 0#4 := by
  rw [decodeWord_of_syndrome rfl, extract_locate_parity _ h]

/-- Settles O33: DEC reads EXT of the received word, XOR EXT of the flip mask, which each of the eight syndromes tells. -/
theorem parityFlipsLeaveTheData : Obligations.ParityFlipsLeaveTheData := by
  refine fun s r => ⟨_, _, extract r, exec_dec s r, exec_ext s r, rfl, ?parity, decodeWord_of_syndrome,
    decodeWord_of_syndrome, decodeWord_of_syndrome, decodeWord_of_syndrome⟩
  case parity =>
    intro hy
    have hdec := decodeWord_of_parity_flip hy
    exact ⟨hdec, hdec.trans BitVec.xor_zero⟩

end Sys2Proof.Machine

/-! An evaluation as a function of the state it is made in (10_state.md R13): what it reads is told by its operands, and what it
leaves on the input ports by `drivenInputs`. -/

namespace Sys2Proof.Machine

/-- What the consumer reads at an evaluation (30_encoding.md R39). -/
def resultOf : Instr → Result
  | .tobits v len => .bits (toBits v len)
  | .frombits q => .integer (fromBits q)
  | .pgen d => .parity (parity1 d) (parity2 d) (parity4 d)
  | .enc d => .code (encodeWord d)
  | .syn r => .syndrome (syndrome r)
  | .loc y => .flip (locate y.toNat)
  | .cor r f => .corrected (correct r f)
  | .ext c => .info (extract c)
  | .dec r => .info (decodeWord r)

/-- The state an evaluation leaves. -/
def afterExec (i : Instr) (s : State) : State := { s with
  encDataI := (drivenInputs i s.inputs).encDataI
  decRxI := (drivenInputs i s.inputs).decRxI
  results := resultOf i :: s.results }

theorem exec_eq_afterExec (i : Instr) (s : State) : exec i s = .next (afterExec i s) := by cases i <;> rfl

@[simp] theorem afterExec_inputs (i : Instr) (s : State) : (afterExec i s).inputs = drivenInputs i s.inputs := rfl
@[simp] theorem afterExec_pending (i : Instr) (s : State) : (afterExec i s).pending = s.pending := rfl
@[simp] theorem afterExec_results (i : Instr) (s : State) : (afterExec i s).results = resultOf i :: s.results := rfl

/-- Settles O38: the function is `resultOf`. -/
theorem resultsDependOnOperandsAlone : Obligations.ResultsDependOnOperandsAlone :=
  ⟨resultOf, fun i s => ⟨afterExec i s, exec_eq_afterExec i s, rfl, rfl⟩⟩

/-! ### The two paths -/

theorem drivenInputs_of_encoder_op {i : Instr} (h : i.op ∈ [Op.pgen, .enc]) (p : Inputs) :
    (drivenInputs i p).decRxI = p.decRxI := by
  cases i
  case pgen | enc => rfl
  all_goals simp [Instr.op] at h

theorem drivenInputs_of_decoder_op {i : Instr} (h : i.op ∈ [Op.syn, .cor, .dec]) (p : Inputs) :
    (drivenInputs i p).encDataI = p.encDataI := by
  cases i
  case syn | cor | dec => rfl
  all_goals simp [Instr.op] at h

theorem drivenInputs_of_unit_op {i : Instr} (h : i.op ∈ [Op.tobits, .frombits, .loc, .ext]) (p : Inputs) :
    drivenInputs i p = p := by
  cases i
  case tobits | frombits | loc | ext => rfl
  all_goals simp [Instr.op] at h

/-- Settles O34: the ports of a path are a function of its input, and an evaluation drives one input at most. -/
theorem pathsAreIndependent : Obligations.PathsAreIndependent := by
  refine ⟨fun i s t hexec => ?_, fun s t => ⟨port_eq_of_encDataI_eq, port_eq_of_decRxI_eq⟩⟩
  obtain rfl : afterExec i s = t := Host.Outcome.next.inj ((exec_eq_afterExec i s).symm.trans hexec)
  exact ⟨fun h => port_eq_of_decRxI_eq (drivenInputs_of_encoder_op h _),
    fun h => port_eq_of_encDataI_eq (drivenInputs_of_decoder_op h _),
    fun h => port_eq_of_inputs_eq (drivenInputs_of_unit_op h _)⟩

theorem drivenInputs_idempotent (i : Instr) (p : Inputs) : drivenInputs i (drivenInputs i p) = drivenInputs i p := by
  cases i <;> rfl

/-- Settles O39: driving the same word again changes no input, and each output is the function of its input. -/
theorem repeatingAnEvaluationChangesNothing : Obligations.RepeatingAnEvaluationChangesNothing := fun i s =>
  ⟨_, _, exec_eq_afterExec i s, exec_eq_afterExec i _, port_eq_of_inputs_eq (drivenInputs_idempotent i s.inputs), rfl,
    fun _ => ⟨rfl, rfl, rfl, rfl⟩, fun _ => ⟨rfl, rfl, rfl, rfl⟩⟩

/-! ### Results and ports -/

theorem wires_eq_outputs {i : Instr} (h : i.op ∈ [Op.tobits, .frombits, .pgen, .enc, .syn, .dec]) (s : State) :
    (resultOf i).wires = i.op.outputs.map (afterExec i s).port := by
  cases i
  case tobits | frombits | pgen | enc | syn | dec => rfl
  all_goals simp [Instr.op] at h

/-- COR with the block's own mask reads the port. -/
theorem wires_cor_own_mask (r : Code) (s : State) : (resultOf (.cor r (flipMask r))).wires =
    Op.cor.outputs.map (afterExec (.cor r (flipMask r)) s).port := rfl

/-- Settles O35: each output port carries the function the evaluation reads, for the word it drove, or for the block's own
word. -/
theorem resultsAreReadAtTheOutputPorts : Obligations.ResultsAreReadAtTheOutputPorts := by
  refine fun i s => ⟨_, _, exec_eq_afterExec i s, rfl, fun h => wires_eq_outputs h s, ?cor, ?units⟩
  case cor =>
    rintro r f rfl hf
    obtain rfl : f = flipMask r := hf
    exact wires_cor_own_mask r s
  case units => rintro (rfl | rfl) <;> rfl

/-- Settles O44: each port carries the unit's function of the block's own words, and driving the word that is there changes
nothing. -/
theorem unitsAgreeWithTheBlock : Obligations.UnitsAgreeWithTheBlock := fun s =>
  ⟨exec_loc s _, exec_cor s _ _, exec_ext s _⟩

/-! ### The ports of any state -/

/-- Nothing is flipped exactly when the syndrome is 0: the corrected word always passes the checks
(43_locator_corrector.md R63). -/
theorem syndrome_eq_zero_iff_correctedWord_eq (r : Code) : syndrome r = 0#3 ↔ correctedWord r = r := by
  refine ⟨correctedWord_of_syndrome_zero, fun h => ?_⟩
  rw [← h, syndrome_correctedWord]

/-- Settles O43: the wires of the codeword, the locator's mask, and the corrected word as the codeword of the decoded word. -/
theorem outputsAreTapsOfInternalSignals : Obligations.OutputsAreTapsOfInternalSignals := fun _ =>
  ⟨(encodeWord_wire6 _).symm, (encodeWord_wire5 _).symm, (encodeWord_wire3 _).symm, ⟨_, rfl⟩, syndrome_encodeWord _,
    popcount_flipMask _, rfl, rfl, ⟨_, (encodeWord_decodeWord _).symm, rfl⟩, syndrome_eq_zero_iff_correctedWord_eq _⟩

/-- Settles O40: zeros driven on both inputs make the inputs those of reset, where every port is zero. -/
theorem zeroInputsGiveZeroOutputs : Obligations.ZeroInputsGiveZeroOutputs := by
  refine ⟨fun s => ⟨_, _, exec_enc s _, exec_dec _ _, fun p => ?zero⟩, port_reset, rfl, rfl⟩
  case zero => exact (port_eq_of_inputs_eq (t := State.reset) rfl p).trans (port_reset p)

/-- Settles O41: outputs are settled in every state, and nothing has been read. -/
theorem resetIsSettled : Obligations.ResetIsSettled := ⟨State.reset.settled, rfl⟩

end Sys2Proof.Machine

/-! Runs of the machine (70_reset_and_hazards.md section 3): each step evaluates one presented line, so a run over the
presented lines is a walk through them. -/

namespace Sys2Proof.Machine

/-- Settles O2: the step's two branches, and the line that stands for a bare word. -/
theorem stepRunsTheDecodedLine : Obligations.StepRunsTheDecodedLine :=
  ⟨fun _ _ _ => step_cons, fun _ => step_nil, fun s n w => ⟨rfl, step_present s (tableLine n w)⟩⟩

theorem step_completes (s : State) : ∃ t : State, step s = .next t := by
  cases hp : s.pending with
  | nil => exact ⟨s, step_nil hp⟩
  | cons l rest => exact ⟨_, (step_cons hp).trans (exec_eq_afterExec _ _)⟩

theorem runsFor (s : State) (k : Nat) : s.RunsFor k := by
  induction k generalizing s with
  | zero => exact ⟨s, run_zero s⟩
  | succ k ih =>
    obtain ⟨t, ht⟩ := step_completes s
    obtain ⟨u, hu⟩ := ih t
    exact ⟨u, (run_succ k ht).trans hu⟩

/-- Settles O46: a step has a next state whether or not a line waits, and a run is such steps. -/
theorem noRunEverStops : Obligations.NoRunEverStops := ⟨step_completes, runsFor⟩

/-! ### The walk through the presented lines -/

/-- The state after the lines were evaluated, one after another. -/
def afterLines (ls : List Line) (s : State) : State := ls.foldl (fun t l => afterExec (decode l) t) s

@[simp] theorem afterLines_nil (s : State) : afterLines [] s = s := rfl

@[simp] theorem afterLines_cons (l : Line) (ls : List Line) (s : State) :
    afterLines (l :: ls) s = afterLines ls (afterExec (decode l) s) := rfl

theorem afterLines_pending (ls : List Line) (s : State) : (afterLines ls s).pending = s.pending := by
  induction ls generalizing s with
  | nil => rfl
  | cons l ls ih => exact ih _

theorem afterLines_inputs (ls : List Line) (s : State) :
    (afterLines ls s).inputs = ls.foldl (fun p l => drivenInputs (decode l) p) s.inputs := by
  induction ls generalizing s with
  | nil => rfl
  | cons l ls ih => exact ih _

/-- Each line adds its own result, newest first (log entry 6). -/
theorem afterLines_results (ls : List Line) (s : State) :
    (afterLines ls s).results = (ls.map fun l => resultOf (decode l)).reverse ++ s.results := by
  induction ls generalizing s with
  | nil => rfl
  | cons l ls ih =>
    rw [afterLines_cons, ih, afterExec_results, List.map_cons, List.reverse_cons, List.append_assoc, List.singleton_append]

/-- As many steps as lines are presented walk through all of them (log entry 5). -/
theorem run_presented_lines (ls : List Line) (s : State) :
    Sys2Proof.core.run ls.length { s with pending := ls } = .next (afterLines ls { s with pending := [] }) := by
  induction ls generalizing s with
  | nil => rfl
  | cons l ls ih =>
    have hstep : step { s with pending := l :: ls } = .next { afterExec (decode l) s with pending := ls } :=
      (step_cons rfl).trans (exec_eq_afterExec _ _)
    exact (run_succ ls.length hstep).trans (ih (afterExec (decode l) s))

/-- Settles O47: the run is the walk, whose results, inputs and queue are told by its lines. -/
theorem runAnswersEveryPresentedLine : Obligations.RunAnswersEveryPresentedLine :=
  ⟨resultOf, fun s => ⟨_, run_presented_lines s.pending s, afterLines_pending _ _, afterLines_results _ _,
    afterLines_inputs _ _, State.settled _⟩⟩

/-- Settles O48: a line's result is its own, so another order of the lines is another order of the results. -/
theorem orderOfEvaluationsDoesNotMatter : Obligations.OrderOfEvaluationsDoesNotMatter := by
  intro s ls ls' hperm
  refine ⟨_, _, run_presented_lines ls s, run_presented_lines ls' s, ?_⟩
  rw [afterLines_results, afterLines_results]
  refine List.Perm.append_right _ ?_
  exact (List.reverse_perm _).trans ((hperm.map _).trans (List.reverse_perm _).symm)

end Sys2Proof.Machine

/-! The harness (44_analyzer_harness.md): injection, the exact rates, and the sweep written as a program. -/

namespace Sys2Proof.Machine

theorem position_inject (c e : Code) (p : Nat) : position (inject c e) p = (position c p ^^ position e p) :=
  BitVec.getLsbD_xor

theorem inject_inject (c e : Code) : inject (inject c e) e = c := by
  rw [inject, inject, BitVec.xor_assoc, BitVec.xor_self, BitVec.xor_zero]

/-- Settles O49: injection is XOR; a program's INJ cuts its operands first. -/
theorem injectionFlipsThePositions : Obligations.InjectionFlipsThePositions :=
  ⟨fun c e p _ _ => position_inject c e p, inject_inject, fun _ => ⟨BitVec.xor_zero, BitVec.xor_allOnes⟩,
    fun _ _ _ _ => runLine_inj rfl rfl, by decide⟩

/-! ### The rates of the seven classes -/

/-- The rate of each class the report visits (44_analyzer_harness.md R76). -/
theorem rate_eq (w : Info) {k : Nat} (h1 : 1 ≤ k) (h7 : k ≤ 7) :
    rate w k = ⟨if k = 1 then 7 else 0, Nat.choose 7 k, if k = 1 then 1 else 0⟩ := by
  obtain rfl | h2 : k = 1 ∨ 2 ≤ k := by omega
  · exact rate_one w
  · rw [rate_of_two_le w h2 h7, if_neg (by omega), if_neg (by omega)]

/-- In a class other than 0 a pattern is repaired exactly when the class is 1 (44_analyzer_harness.md R76). -/
theorem decodeWord_inject_eq_iff (w : Info) {k : Nat} {e : Code} (h1 : 1 ≤ k) (he : e ∈ weightClass k) :
    decodeWord (inject (encodeWord w) e) = w ↔ k = 1 := by
  have hweight : popcount e = k := ((mem_weightClass k e).1 he).2
  rw [inject, decodeWord_encodeWord_xor_eq_iff, hweight]
  omega

/-- Settles O53: the rates are those of `rate_eq`, and DEC reads the reference word back for weight 1 alone. -/
theorem correctionRatesAreExact : Obligations.CorrectionRatesAreExact := by
  intro s w k h1 h7
  rw [rate_eq w h1 h7]
  exact ⟨rfl, rfl, rfl, _, exec_enc s w, fun e he => ⟨_, exec_dec _ _, decodeWord_inject_eq_iff w h1 he⟩⟩

/-! ### The sweep as a program -/

/-- ENC of a named information word: its value is the codeword. -/
theorem runLine_enc {p : ProgState} {x : Ref} {w : Info} (hx : x.resolve p.env = .ok (.int w.toNat)) :
    runLine p (.eval .enc [x]) = .ok ⟨answer (.code (encodeWord w)) (driveEnc w p.machine),
      p.env ++ [.int (encodeWord w).toNat]⟩ := by
  have hargs : [x].mapM (Ref.resolve p.env) = .ok [.int w.toNat] := by simp [hx, bind, Except.bind, pure, Except.pure]
  have hexec : exec (decode (encode (.enc w))) p.machine = .next (answer (.code (encodeWord w)) (driveEnc w p.machine)) := by
    rw [decode_encode_enc, exec_enc]
  exact runLine_eval hargs rfl hexec rfl

theorem lookup_classify {k : Nat} (hk : k ∈ classKeys) : classify.lookup k = some (weightClass k) :=
  List.lookup_graph weightClass hk

/-- RATE of a class of the mapping: the machine walks through its patterns, and the value is the class's rate
(44_analyzer_harness.md R75). -/
theorem runLine_rate {p : ProgState} {x y z : Ref} {w : Info} {k : Nat} (hx : x.resolve p.env = .ok (.int w.toNat))
    (hy : y.resolve p.env = .ok (.int (encodeWord w).toNat)) (hz : z.resolve p.env = .ok (.classes classify))
    (hk : k ∈ classKeys) : runLine p (.rate x y z k) =
      .ok ⟨afterPatterns (encodeWord w) (weightClass k) p.machine, p.env ++ [.rate (rate w k)]⟩ := by
  obtain ⟨h1, h7⟩ := (mem_classKeys k).1 hk
  obtain ⟨e, es, hcons⟩ := List.exists_cons_of_length_pos (Nat.pos_of_ne_zero (weightClass_length_ne_zero h1 h7))
  simp only [runLine, hx, hy, hz, bind, Except.bind, lookup_classify hk, hcons, trunc_of_toNat, rateOn_eq, rate]
  rfl

/-- The lines of the sweep that ask for rates, by their class (95_test_vectors.md P7). -/
def rateLines (ks : List Nat) : List ProgLine := ks.map (.rate (.name 0) (.name 1) (.name 2))

/-- The names of the sweep: the reference word, the codeword, the mapping, and the rates so far (95_test_vectors.md P7). -/
def sweepEnv (w : Info) (rates : List Rate) : List Value :=
  [.int w.toNat, .int (encodeWord w).toNat, .classes classify] ++ rates.map .rate

/-- The lines of rates walk through the patterns of their classes, in order. -/
theorem foldlM_rateLines (w : Info) (ks : List Nat) (hks : ks ⊆ classKeys) (rates : List Rate) (s : State) :
    (rateLines ks).foldlM runLine ⟨s, sweepEnv w rates⟩ =
      .ok ⟨afterPatterns (encodeWord w) (ks.map weightClass).flatten s, sweepEnv w (rates ++ ks.map (rate w))⟩ := by
  induction ks generalizing rates s with
  | nil => simp [rateLines, pure, Except.pure]
  | cons k ks ih =>
    obtain ⟨hk, hrest⟩ := List.cons_subset.1 hks
    refine (foldlM_runLine_cons _ (runLine_rate (w := w) rfl rfl rfl hk)).trans ?_
    have henv : sweepEnv w rates ++ [.rate (rate w k)] = sweepEnv w (rates ++ [rate w k]) := by simp [sweepEnv]
    rw [henv]
    refine (ih hrest _ _).trans ?_
    simp [afterPatterns_append]

theorem sweepProgram_eq (w : Info) :
    sweepProgram w = [.give (.int w.toNat), .eval .enc [.name 0], .classify] ++ rateLines classKeys := rfl

/-- The sweep runs to its end: ENC once, then the walk through all classes. -/
theorem runProgram_sweepProgram (w : Info) (s : State) : runProgram s (sweepProgram w) =
    .ok ⟨afterPatterns (encodeWord w) classPatterns (answer (.code (encodeWord w)) (driveEnc w s)),
      sweepEnv w (classKeys.map (rate w))⟩ := by
  rw [sweepProgram_eq, classPatterns_eq]
  refine (foldlM_runLine_cons _ rfl).trans ?_
  refine (foldlM_runLine_cons _ (runLine_enc rfl)).trans ?_
  refine (foldlM_runLine_cons _ rfl).trans ?_
  exact foldlM_rateLines w classKeys (List.Subset.refl _) [] _

/-- The rates of the sweep are those of R76. -/
theorem classKeys_map_rate (w : Info) : classKeys.map (rate w) =
    [⟨7, 7, 1⟩, ⟨0, 21, 0⟩, ⟨0, 35, 0⟩, ⟨0, 35, 0⟩, ⟨0, 21, 0⟩, ⟨0, 7, 0⟩, ⟨0, 1, 0⟩] := by
  have hsnd := congrArg (List.map Prod.snd) (classKeys_rates w)
  rwa [List.map_map] at hsnd

/-- Settles O57: program and analysis are the same walk after ENC, and the program's last names are the rates. -/
theorem sweepProgramIsTheAnalysisRun : Obligations.SweepProgramIsTheAnalysisRun := by
  refine fun w s => ⟨_, _, runProgram_sweepProgram w s, analyze_eq w s, rfl, ?env⟩
  case env =>
    dsimp only
    rw [classKeys_map_rate]
    rfl

end Sys2Proof.Machine
